-- ==== Sys2Proof/Word.lean ====
section
/-! DEFINITION. The bit-vector types of PKT (spec 00_scope.md R11). Nothing here has a meaning of its own:
bit fields, byte order and the hex codec stand in Machine/Operands.lean. -/

namespace Sys2Proof

/-- A nibble: "4 bits, encoded as one hex ASCII character" (R11, R14). -/
abbrev Nibble := BitVec 4

/-- A byte: 8 bits (R11). A character is its ASCII code as a byte (R12). -/
abbrev Byte := BitVec 8

/-- A 16-bit word (R11); signed operands enter as two's-complement bit patterns. -/
abbrev Word16 := BitVec 16

/-- One raw flag or an on/off value: 1 bit (R9, R124). -/
abbrev Bit := BitVec 1

end Sys2Proof
end

