-- ==== Sys2Proof/Config.lean ====
section
/-! DEFINITION. What is fixed for one PKT: the constants the source gives, the open parameters of 00_scope.md R7
(a value of Config, carried by State and never written by a step), the vocabulary of the console line
(30_encoding.md R76), and the two open functions of the closed loop (10_state.md R31). -/

namespace Sys2Proof

/-- `START_BYTE`, the frame delimiter, 0x7B (R7, R12). -/
def startByte : Byte := 0x7B#8
/-- `END_BYTE`, 0x7D (R7). -/
def endByte : Byte := 0x7D#8
/-- `SEP_SINGLE`, the comma, 0x2C (R7). -/
def sepSingle : Byte := 0x2C#8
/-- `SEP_KEY`, the colon, 0x3A (R7). -/
def sepKey : Byte := 0x3A#8
/-- CR (R7, R12). -/
def crByte : Byte := 0x0D#8
/-- LF (R7, R12). -/
def lfByte : Byte := 0x0A#8
/-- NUL (R12), the byte that ends a line text (45_line_session.md R184). -/
def nulByte : Byte := 0x00#8
/-- `TAG_LED`, the one tag character the source gives (R7, R80). -/
def tagLed : Byte := 0x4C#8

/-- "Hello" (R185). -/
def textHello : List Byte := [0x48#8, 0x65#8, 0x6C#8, 0x6C#8, 0x6F#8]
/-- "led data off" (R186). -/
def textDataOff : List Byte := [0x6C#8, 0x65#8, 0x64#8, 0x20#8, 0x64#8, 0x61#8, 0x74#8, 0x61#8, 0x20#8, 0x6F#8, 0x66#8, 0x66#8]
/-- "led data on" (R187). -/
def textDataOn : List Byte := [0x6C#8, 0x65#8, 0x64#8, 0x20#8, 0x64#8, 0x61#8, 0x74#8, 0x61#8, 0x20#8, 0x6F#8, 0x6E#8]
/-- "led err off" (R188). -/
def textErrOff : List Byte := [0x6C#8, 0x65#8, 0x64#8, 0x20#8, 0x65#8, 0x72#8, 0x72#8, 0x20#8, 0x6F#8, 0x66#8, 0x66#8]
/-- "led err on" (R189). -/
def textErrOn : List Byte := [0x6C#8, 0x65#8, 0x64#8, 0x20#8, 0x65#8, 0x72#8, 0x72#8, 0x20#8, 0x6F#8, 0x6E#8]

/-- The fixed vocabulary of the line session (R76, R184). -/
def vocabulary : List (List Byte) := [textHello, textDataOff, textDataOn, textErrOff, textErrOn]

/-- The parameters R7 leaves OPEN. -/
structure Config where
  /-- `LINE_CAP`: capacity of the line buffer in bytes. -/
  lineCap : Nat
  /-- `PAYLOAD_CAP`: capacity of the payload buffer in hex characters. -/
  payloadCap : Nat
  tagSerial : Byte
  tagGpio : Byte
  tagButton : Byte
  tagTemp : Byte
  tagAccel : Byte
  tagError : Byte
  tagVersion : Byte
  tagUiCfg : Byte
deriving DecidableEq, Repr

/-- R7's constraints: `LINE_CAP >= 2`, `PAYLOAD_CAP >= 12`, `TAG_SERIAL != TAG_LED`. An instantiation that breaks
them is refused (R10). DESIGN CHOICE (log 23): R7 says that a model "should take [the other tags] pairwise distinct" and
that no rule needs it; equal ones are admitted here, and only the defaults are distinct. -/
def Config.ok (c : Config) : Bool := decide (2 ≤ c.lineCap) && decide (12 ≤ c.payloadCap) && decide (c.tagSerial ≠ tagLed)

/-- The defaults of R7. DESIGN CHOICE (log 1, log 22): no statement mentions one of these letters or sizes. -/
def Config.defaults : Config :=
  { lineCap := 64, payloadCap := 16, tagSerial := 0x53#8, tagGpio := 0x47#8, tagButton := 0x50#8, tagTemp := 0x54#8,
    tagAccel := 0x58#8, tagError := 0x52#8, tagVersion := 0x56#8, tagUiCfg := 0x55#8 }

/-- `DLED_RAW` (R31, D22): the raw level the data LED's output reads after it was set to the given on/off value.
OPEN, with no default: no proof can see a value of it (log 19). -/
opaque Config.dledRaw : Bit → Bit

/-- `ELED_RAW` (R31, D22), the same for the error LED. -/
opaque Config.eledRaw : Bit → Bit

end Sys2Proof
end

