-- ==== Sys2Proof/Syntax.lean ====
section
/-! DEFINITION. The operations of PKT: one constructor of Instr for each row of the operation map, 30_encoding.md R90
(opcode_table.json), with the operands the operation's own rule gives it. -/

namespace Sys2Proof

/-- The seven parser states, in the source's order (10_state.md R21). -/
inductive PState where
  | idle
  | sequenceNumber
  | packetId
  | payloadSizeHigh
  | payloadSizeLow
  | payloadNibbleEven
  | payloadNibbleOdd
deriving DecidableEq, Repr

/-- A payload item of a single packet: `B(v)` or `W(v)` (42_packet_framer.md R120). -/
inductive Item where
  | byte (v : Byte)
  | word (v : Word16)
deriving DecidableEq, Repr

/-- The operands of `FRM.AGG`, all sampled by the environment before the command (R124). -/
structure AggOperands where
  btn : Bit
  conn : Bit
  eled : Bit
  dled : Bit
  gpio1 : Bit
  gpio2 : Bit
  temp : Word16
  ax : Word16
  ay : Word16
  az : Word16
deriving DecidableEq, Repr

/-- The operations, in the order of R90. -/
inductive Instr where
  /-- `HEX.ENC` (R100). -/
  | hexEnc (n : Nibble)
  /-- `HEX.DEC` (R101). -/
  | hexDec (c : Byte)
  /-- `SER.BYTE` (R110). -/
  | serByte (v : Byte)
  /-- `SER.WORD` (R111). -/
  | serWord (v : Word16)
  /-- `SER.CHAR` (R112). -/
  | serChar (ch : Byte)
  /-- `FRM.SINGLE` (R120). -/
  | frmSingle (t : Byte) (items : List Item)
  /-- `FRM.STRING` (R121). -/
  | frmString (t : Byte) (str : List Byte)
  /-- `FRM.AGG` (R124). -/
  | frmAgg (a : AggOperands)
  /-- `VAL.BUTTON` (R125). -/
  | valButton (btn : Bit)
  /-- `VAL.LED` (R126). -/
  | valLed (conn eled dled : Bit)
  /-- `VAL.GPIO` (R127). -/
  | valGpio (gpio1 gpio2 : Bit)
  /-- `VAL.AXIS` (R128). -/
  | valAxis (a : Word16)
  /-- `PAR.START` (R141): the byte is `{`. -/
  | parStart
  /-- `PAR.SKIP` (R142): any byte but `{`. -/
  | parSkip (b : Byte)
  /-- `PAR.SEQ` (R143). -/
  | parSeq (b : Byte)
  /-- `PAR.TAG` (R144). -/
  | parTag (b : Byte)
  /-- `PAR.LENHI` (R145). -/
  | parLenHi (b : Byte)
  /-- `PAR.LENLO` (R146). -/
  | parLenLo (b : Byte)
  /-- `PAR.EVEN` (R147). -/
  | parEven (b : Byte)
  /-- `PAR.ODD` (R148). -/
  | parOdd (b : Byte)
  /-- `DSP.LED.DATA_OFF` (R171): the data byte has bit 4 = 0, bit 0 = 0, its other bits unnamed. -/
  | dspLedDataOff (d : Byte)
  /-- `DSP.LED.DATA_ON` (R172). -/
  | dspLedDataOn (d : Byte)
  /-- `DSP.LED.ERR_OFF` (R173). -/
  | dspLedErrOff (d : Byte)
  /-- `DSP.LED.ERR_ON` (R174). -/
  | dspLedErrOn (d : Byte)
  /-- `DSP.SERIAL` (R175). -/
  | dspSerial (d : Byte)
  /-- `DSP.NOP` (R176): any other tag. -/
  | dspNop (t d : Byte)
  /-- `LIN.TERM.CR` (R181). -/
  | linTermCr
  /-- `LIN.TERM.LF` (R181). -/
  | linTermLf
  /-- `LIN.CHAR` (R182): any byte but CR and LF. -/
  | linChar (b : Byte)
  /-- `LIN.HELLO` (R185). -/
  | linHello
  /-- `LIN.DATA_OFF` (R186). -/
  | linDataOff
  /-- `LIN.DATA_ON` (R187). -/
  | linDataOn
  /-- `LIN.ERR_OFF` (R188). -/
  | linErrOff
  /-- `LIN.ERR_ON` (R189). -/
  | linErrOn
  /-- `LIN.NOMATCH` (R190): a line text outside the vocabulary. -/
  | linNoMatch (text : List Byte)
  /-- `RESET` (R220). -/
  | reset
deriving DecidableEq, Repr

end Sys2Proof
end

