-- ==== Sys2Proof/Machine/Operands.lean ====
section
/-! DEFINITION. The pure operand functions: bit fields and byte order (20_memory.md R52, R53), the hex codec
(40_hex_codec.md) and the hex text of a payload item (30_encoding.md R78). -/

namespace Sys2Proof.Machine

/-- `v[7:4]`. -/
def hiNibble (v : Byte) : Nibble := v.extractLsb' 4 4
/-- `v[3:0]`. -/
def loNibble (v : Byte) : Nibble := v.extractLsb' 0 4
/-- `v[7:0]` of a word. -/
def loByte (v : Word16) : Byte := v.extractLsb' 0 8
/-- `v[15:8]` of a word. -/
def hiByte (v : Word16) : Byte := v.extractLsb' 8 8
/-- `high ++ low`, the word of two bytes. -/
def wordOf (low high : Byte) : Word16 := high ++ low

/-- `enc(n)`, the uppercase hex digit of a nibble (R100). -/
def enc (n : Nibble) : Byte :=
  if n ≤ 9#4 then 0x30#8 + n.setWidth 8 else 0x41#8 + (n.setWidth 8 - 10#8)

/-- `dec(c)`, with no validation (R101): the digit branch, else the low 4 bits of the integer
`(c & 0x5F) - 0x41 + 10`. UNVERIFIED for bytes that are no hex digit: the reading of "wrapped" is the spec's decision
D4 (log 14). -/
def dec (c : Byte) : Nibble :=
  if 0x30#8 ≤ c ∧ c ≤ 0x39#8 then (c - 0x30#8).setWidth 4
  else BitVec.ofInt 4 (((c &&& 0x5F#8).toNat : Int) - 0x41 + 10)

/-- The two characters of an outbound byte: high nibble, low nibble (R78, R110). -/
def hexOfByte (v : Byte) : List Byte := [enc (hiNibble v), enc (loNibble v)]

/-- `((x << 4) | zext_8(dec(c)))[7:0]`: shift one decoded character in (R146, R148). -/
def shiftIn (x c : Byte) : Byte := (x <<< 4) ||| (dec c).setWidth 8

end Sys2Proof.Machine
end

