-- ==== Sys2Proof/WellFormed.lean ====
section
/-! DEFINITION. Which terms of Instr are operations: the part of the selecting condition of 30_encoding.md R90 that
the operand types do not already say. Every operand width (4, 8, 16, 1 bits) is in the types. -/

namespace Sys2Proof

/-- R90: `PAR.SKIP` takes `b != 0x7B`; the LED operations take the data bytes whose bits 4 and 0 name them;
`DSP.SERIAL` needs `TAG_SERIAL != TAG_LED`; `DSP.NOP` takes any tag but those two; `LIN.CHAR` any byte but CR and LF;
`LIN.NOMATCH` a text equal to none of the five words. -/
def WellFormed (c : Config) : Instr → Bool
  | .hexEnc _ => true
  | .hexDec _ => true
  | .serByte _ => true
  | .serWord _ => true
  | .serChar _ => true
  | .frmSingle _ _ => true
  | .frmString _ _ => true
  | .frmAgg _ => true
  | .valButton _ => true
  | .valLed _ _ _ => true
  | .valGpio _ _ => true
  | .valAxis _ => true
  | .parStart => true
  | .parSkip b => decide (b ≠ startByte)
  | .parSeq _ => true
  | .parTag _ => true
  | .parLenHi _ => true
  | .parLenLo _ => true
  | .parEven _ => true
  | .parOdd _ => true
  | .dspLedDataOff d => !d.getLsbD 4 && !d.getLsbD 0
  | .dspLedDataOn d => !d.getLsbD 4 && d.getLsbD 0
  | .dspLedErrOff d => d.getLsbD 4 && !d.getLsbD 0
  | .dspLedErrOn d => d.getLsbD 4 && d.getLsbD 0
  | .dspSerial _ => decide (c.tagSerial ≠ tagLed)
  | .dspNop t _ => decide (t ≠ tagLed) && decide (t ≠ c.tagSerial)
  | .linTermCr => true
  | .linTermLf => true
  | .linChar b => decide (b ≠ crByte) && decide (b ≠ lfByte)
  | .linHello => true
  | .linDataOff => true
  | .linDataOn => true
  | .linErrOff => true
  | .linErrOn => true
  | .linNoMatch text => decide (text ∉ vocabulary)
  | .reset => true

end Sys2Proof
end

