-- ==== Sys2Proof/Decode.lean ====
section
/-! DEFINITION. From selector words to operations and back. The formats and their words are those of 30_encoding.md
R91; the conditions are those of R90. A framer command and a function call also carry operands: their bytes follow
the selector in the layout of log 6 (DESIGN CHOICE: the spec gives the operands and their widths and no layout). -/

namespace Sys2Proof

/-- The seven formats of R91: where a selector word comes from. -/
inductive Format where
  | func
  | event
  | frm
  | par
  | dsp
  | linByte
  | linText
deriving DecidableEq, Repr

/-- Why a request names no operation. Each is a refusal at the model's boundary (R122), never a fault of PKT. -/
inductive DecodeError where
  /-- Fewer or more bytes than the format, or the command's operands, have. -/
  | wrongLength
  /-- A selector wider than R91 gives its format. -/
  | selectorTooWide
  /-- State code 7, which is never produced (R21). -/
  | unusedStateCode
  /-- Framer selector 3, "unused and refused" (R7, R122). -/
  | unusedFramerSelector
  /-- An operand outside its stated width (R122). -/
  | operandTooWide
  /-- A payload item that is neither `B` nor `W` (R120). -/
  | unknownItem
  /-- A function R90 does not list. -/
  | unknownFunction
deriving DecidableEq, Repr

/-- The state codes of R21. -/
def PState.code : PState → Byte
  | .idle => 0#8
  | .sequenceNumber => 1#8
  | .packetId => 2#8
  | .payloadSizeHigh => 3#8
  | .payloadSizeLow => 4#8
  | .payloadNibbleEven => 5#8
  | .payloadNibbleOdd => 6#8

/-- The state a code of R21 names; code 7 and everything wider name none. -/
def PState.ofCode (code : Byte) : Option PState :=
  match code.toNat with
  | 0 => some .idle
  | 1 => some .sequenceNumber
  | 2 => some .packetId
  | 3 => some .payloadSizeHigh
  | 4 => some .payloadSizeLow
  | 5 => some .payloadNibbleEven
  | 6 => some .payloadNibbleOdd
  | _ => none

/-- The parser transition that the row (state, byte) of R140 names. -/
def decodeTransition (p : PState) (b : Byte) : Instr :=
  match p with
  | .idle => if b = startByte then .parStart else .parSkip b
  | .sequenceNumber => .parSeq b
  | .packetId => .parTag b
  | .payloadSizeHigh => .parLenHi b
  | .payloadSizeLow => .parLenLo b
  | .payloadNibbleEven => .parEven b
  | .payloadNibbleOdd => .parOdd b

/-- `PAR` words: `pstate[2:0] ++ b[7:0]`, 11 bits, here as the byte of the state code above the received byte. -/
def decodePar : List Byte → Except DecodeError Instr
  | [code, b] =>
    match PState.ofCode code with
    | some p => .ok (decodeTransition p b)
    | none => .error (if code = 7#8 then .unusedStateCode else .selectorTooWide)
  | _ => .error .wrongLength

/-- `DSP` words `tag ++ data`, in the decision order of 44_action_dispatcher.md R170: the LED tag first. -/
def decodeDispatch (c : Config) (t d : Byte) : Instr :=
  if t = tagLed then
    if d.getLsbD 4 then
      if d.getLsbD 0 then .dspLedErrOn d else .dspLedErrOff d
    else
      if d.getLsbD 0 then .dspLedDataOn d else .dspLedDataOff d
  else if t = c.tagSerial then .dspSerial d
  else .dspNop t d

def decodeDsp (c : Config) : List Byte → Except DecodeError Instr
  | [t, d] => .ok (decodeDispatch c t d)
  | _ => .error .wrongLength

/-- The received console byte: a terminator is tested first (R180, R204). -/
def decodeConsole (b : Byte) : Instr :=
  if b = crByte then .linTermCr else if b = lfByte then .linTermLf else .linChar b

def decodeLinByte : List Byte → Except DecodeError Instr
  | [b] => .ok (decodeConsole b)
  | _ => .error .wrongLength

/-- The terminated line's text against the vocabulary, whole and byte for byte (R184). -/
def decodeText (text : List Byte) : Instr :=
  if text = textHello then .linHello
  else if text = textDataOff then .linDataOff
  else if text = textDataOn then .linDataOn
  else if text = textErrOff then .linErrOff
  else if text = textErrOn then .linErrOn
  else .linNoMatch text

/-- A 1-bit operand travels as the byte 0 or 1; any other byte is outside its width (R122). -/
def decodeBit (b : Byte) : Except DecodeError Bit :=
  if b = 0#8 then .ok 0#1 else if b = 1#8 then .ok 1#1 else .error .operandTooWide

/-- Payload items: the byte 0 then a byte value, or the byte 1 then a word value, low byte first (log 6). -/
def decodeItems : List Byte → Except DecodeError (List Item)
  | [] => .ok []
  | kind :: [] => .error (if kind = 0#8 ∨ kind = 1#8 then .wrongLength else .unknownItem)
  | kind :: v :: [] => if kind = 0#8 then .ok [.byte v] else .error (if kind = 1#8 then .wrongLength else .unknownItem)
  | kind :: v :: h :: rest =>
    if kind = 0#8 then
      match decodeItems (h :: rest) with
      | .ok items => .ok (.byte v :: items)
      | .error e => .error e
    else if kind = 1#8 then
      match decodeItems rest with
      | .ok items => .ok (.word (Machine.wordOf v h) :: items)
      | .error e => .error e
    else .error .unknownItem

/-- The six raw flags of `FRM.AGG` as bytes 0 or 1, then four words, low byte first (log 6). -/
def decodeAgg : List Byte → Except DecodeError Instr
  | [btn, conn, eled, dled, gpio1, gpio2, tl, th, xl, xh, yl, yh, zl, zh] => do
    let btn ← decodeBit btn
    let conn ← decodeBit conn
    let eled ← decodeBit eled
    let dled ← decodeBit dled
    let gpio1 ← decodeBit gpio1
    let gpio2 ← decodeBit gpio2
    .ok (.frmAgg { btn, conn, eled, dled, gpio1, gpio2, temp := Machine.wordOf tl th, ax := Machine.wordOf xl xh,
                   ay := Machine.wordOf yl yh, az := Machine.wordOf zl zh })
  | _ => .error .wrongLength

/-- Framer commands: the 2-bit selector of R91, then the operands (log 6). -/
def decodeFrm : List Byte → Except DecodeError Instr
  | [] => .error .wrongLength
  | sel :: ops =>
    match sel.toNat with
    | 0 =>
      match ops with
      | [] => .error .wrongLength
      | t :: rest =>
        match decodeItems rest with
        | .ok items => .ok (.frmSingle t items)
        | .error e => .error e
    | 1 =>
      match ops with
      | [] => .error .wrongLength
      | t :: str => .ok (.frmString t str)
    | 2 => decodeAgg ops
    | 3 => .error .unusedFramerSelector
    | _ => .error .selectorTooWide

/-- Function calls: the position of the operation among the `FUNC` rows of R90, then the operands (log 6). A wider
operand of `HEX.ENC` gives its low 4 bits (R100, log 15). -/
def decodeFunc : List Byte → Except DecodeError Instr
  | [] => .error .wrongLength
  | f :: ops =>
    match f.toNat with
    | 0 => match ops with
      | [v] => .ok (.hexEnc (Machine.loNibble v))
      | _ => .error .wrongLength
    | 1 => match ops with
      | [c] => .ok (.hexDec c)
      | _ => .error .wrongLength
    | 2 => match ops with
      | [v] => .ok (.serByte v)
      | _ => .error .wrongLength
    | 3 => match ops with
      | [l, h] => .ok (.serWord (Machine.wordOf l h))
      | _ => .error .wrongLength
    | 4 => match ops with
      | [ch] => .ok (.serChar ch)
      | _ => .error .wrongLength
    | 5 => match ops with
      | [btn] => do
        let btn ← decodeBit btn
        .ok (.valButton btn)
      | _ => .error .wrongLength
    | 6 => match ops with
      | [conn, eled, dled] => do
        let conn ← decodeBit conn
        let eled ← decodeBit eled
        let dled ← decodeBit dled
        .ok (.valLed conn eled dled)
      | _ => .error .wrongLength
    | 7 => match ops with
      | [gpio1, gpio2] => do
        let gpio1 ← decodeBit gpio1
        let gpio2 ← decodeBit gpio2
        .ok (.valGpio gpio1 gpio2)
      | _ => .error .wrongLength
    | 8 => match ops with
      | [l, h] => .ok (.valAxis (Machine.wordOf l h))
      | _ => .error .wrongLength
    | _ => .error .unknownFunction

/-- The `Reset` event carries nothing (R91). -/
def decodeEvent : List Byte → Except DecodeError Instr
  | [] => .ok .reset
  | _ => .error .wrongLength

/-- The operation a selector names: total on any bytes of any format. -/
def decode (c : Config) (f : Format) (bytes : List Byte) : Except DecodeError Instr :=
  match f with
  | .func => decodeFunc bytes
  | .event => decodeEvent bytes
  | .frm => decodeFrm bytes
  | .par => decodePar bytes
  | .dsp => decodeDsp c bytes
  | .linByte => decodeLinByte bytes
  | .linText => .ok (decodeText bytes)

/-- A 1-bit operand as a byte. -/
def encodeBit (b : Bit) : Byte := b.setWidth 8

/-- A 16-bit operand as its two bytes, low byte first. -/
def encodeWord (v : Word16) : List Byte := [Machine.loByte v, Machine.hiByte v]

def encodeItem : Item → List Byte
  | .byte v => [0#8, v]
  | .word v => 1#8 :: encodeWord v

/-- The selector of an operation: its format and bytes, by R90 and R91. -/
def encode (c : Config) : Instr → Format × List Byte
  | .hexEnc n => (.func, [0#8, n.setWidth 8])
  | .hexDec ch => (.func, [1#8, ch])
  | .serByte v => (.func, [2#8, v])
  | .serWord v => (.func, 3#8 :: encodeWord v)
  | .serChar ch => (.func, [4#8, ch])
  | .frmSingle t items => (.frm, 0#8 :: t :: items.flatMap encodeItem)
  | .frmString t str => (.frm, 1#8 :: t :: str)
  | .frmAgg a => (.frm, [2#8, encodeBit a.btn, encodeBit a.conn, encodeBit a.eled, encodeBit a.dled, encodeBit a.gpio1,
      encodeBit a.gpio2] ++ encodeWord a.temp ++ encodeWord a.ax ++ encodeWord a.ay ++ encodeWord a.az)
  | .valButton btn => (.func, [5#8, encodeBit btn])
  | .valLed conn eled dled => (.func, [6#8, encodeBit conn, encodeBit eled, encodeBit dled])
  | .valGpio gpio1 gpio2 => (.func, [7#8, encodeBit gpio1, encodeBit gpio2])
  | .valAxis a => (.func, 8#8 :: encodeWord a)
  | .parStart => (.par, [PState.idle.code, startByte])
  | .parSkip b => (.par, [PState.idle.code, b])
  | .parSeq b => (.par, [PState.sequenceNumber.code, b])
  | .parTag b => (.par, [PState.packetId.code, b])
  | .parLenHi b => (.par, [PState.payloadSizeHigh.code, b])
  | .parLenLo b => (.par, [PState.payloadSizeLow.code, b])
  | .parEven b => (.par, [PState.payloadNibbleEven.code, b])
  | .parOdd b => (.par, [PState.payloadNibbleOdd.code, b])
  | .dspLedDataOff d => (.dsp, [tagLed, d])
  | .dspLedDataOn d => (.dsp, [tagLed, d])
  | .dspLedErrOff d => (.dsp, [tagLed, d])
  | .dspLedErrOn d => (.dsp, [tagLed, d])
  | .dspSerial d => (.dsp, [c.tagSerial, d])
  | .dspNop t d => (.dsp, [t, d])
  | .linTermCr => (.linByte, [crByte])
  | .linTermLf => (.linByte, [lfByte])
  | .linChar b => (.linByte, [b])
  | .linHello => (.linText, textHello)
  | .linDataOff => (.linText, textDataOff)
  | .linDataOn => (.linText, textDataOn)
  | .linErrOff => (.linText, textErrOff)
  | .linErrOn => (.linText, textErrOn)
  | .linNoMatch text => (.linText, text)
  | .reset => (.event, [])

/-! ### The selecting conditions as rows

The rows of opcode_table.json whose format has a selector word, as R91 spells them: `(w & mask) = match`, the row
listed first wins. They are a second account of the same choice, independent of the decoder above. -/

/-- One row of the operation map. -/
structure OpRow where
  mnemonic : String
  format : Format
  pattern : Nat
  mask : Nat
  width : Nat
deriving DecidableEq, Repr

/-- The rows with a selector word, in R90's order. The row of `DSP.SERIAL` carries the parameter `TAG_SERIAL`. -/
def opRows (c : Config) : List OpRow :=
  [⟨"FRM.SINGLE", .frm, 0x0, 0x3, 2⟩, ⟨"FRM.STRING", .frm, 0x1, 0x3, 2⟩, ⟨"FRM.AGG", .frm, 0x2, 0x3, 2⟩] ++
  [⟨"PAR.START", .par, 0x07B, 0x7FF, 11⟩, ⟨"PAR.SKIP", .par, 0x000, 0x700, 11⟩, ⟨"PAR.SEQ", .par, 0x100, 0x700, 11⟩,
   ⟨"PAR.TAG", .par, 0x200, 0x700, 11⟩, ⟨"PAR.LENHI", .par, 0x300, 0x700, 11⟩, ⟨"PAR.LENLO", .par, 0x400, 0x700, 11⟩,
   ⟨"PAR.EVEN", .par, 0x500, 0x700, 11⟩, ⟨"PAR.ODD", .par, 0x600, 0x700, 11⟩] ++
  [⟨"DSP.LED.DATA_OFF", .dsp, 0x4C00, 0xFF11, 16⟩, ⟨"DSP.LED.DATA_ON", .dsp, 0x4C01, 0xFF11, 16⟩,
   ⟨"DSP.LED.ERR_OFF", .dsp, 0x4C10, 0xFF11, 16⟩, ⟨"DSP.LED.ERR_ON", .dsp, 0x4C11, 0xFF11, 16⟩,
   ⟨"DSP.SERIAL", .dsp, c.tagSerial.toNat * 256, 0xFF00, 16⟩, ⟨"DSP.NOP", .dsp, 0x0000, 0x0000, 16⟩] ++
  [⟨"LIN.TERM.CR", .linByte, 0x0D, 0xFF, 8⟩, ⟨"LIN.TERM.LF", .linByte, 0x0A, 0xFF, 8⟩, ⟨"LIN.CHAR", .linByte, 0x00, 0x00, 8⟩] ++
  [⟨"LIN.HELLO", .linText, 0x48656C6C6F, 0xFFFFFFFFFF, 40⟩,
   ⟨"LIN.DATA_OFF", .linText, 0x6C65642064617461206F6666, 0xFFFFFFFFFFFFFFFFFFFFFFFF, 96⟩,
   ⟨"LIN.DATA_ON", .linText, 0x6C65642064617461206F6E, 0xFFFFFFFFFFFFFFFFFFFFFF, 88⟩,
   ⟨"LIN.ERR_OFF", .linText, 0x6C656420657272206F6666, 0xFFFFFFFFFFFFFFFFFFFFFF, 88⟩,
   ⟨"LIN.ERR_ON", .linText, 0x6C656420657272206F6E, 0xFFFFFFFFFFFFFFFFFFFF, 80⟩,
   ⟨"LIN.NOMATCH", .linText, 0x0, 0x0, 0⟩]

/-- Bytes as one number, the first byte most significant (R91, format `LINTEXT`). -/
def bigEndian : List Byte → Nat
  | [] => 0
  | b :: rest => b.toNat * 256 ^ rest.length + bigEndian rest

/-- The selector word of a format as a number (R91); a framer request's operands are no part of it. -/
def selectorNumber : Format → List Byte → Nat
  | .frm, sel :: _ => sel.toNat
  | _, bytes => bigEndian bytes

/-- R91: `(w & mask) = match`; a `LINTEXT` row that has a word matches only a line of exactly its length. -/
def OpRow.selects (r : OpRow) (f : Format) (bytes : List Byte) : Bool :=
  decide (r.format = f) && (decide (f ≠ .linText) || decide (r.mask = 0) || decide (r.width = 8 * bytes.length)) &&
    decide (selectorNumber f bytes &&& r.mask = r.pattern)

/-- The mnemonic of the row that selects, R90: "the one listed first wins". -/
def tableMnemonic (c : Config) (f : Format) (bytes : List Byte) : Option String :=
  ((opRows c).find? (fun r => r.selects f bytes)).map OpRow.mnemonic

/-- The mnemonic of each operation (R90). -/
def Instr.mnemonic : Instr → String
  | .hexEnc _ => "HEX.ENC"
  | .hexDec _ => "HEX.DEC"
  | .serByte _ => "SER.BYTE"
  | .serWord _ => "SER.WORD"
  | .serChar _ => "SER.CHAR"
  | .frmSingle _ _ => "FRM.SINGLE"
  | .frmString _ _ => "FRM.STRING"
  | .frmAgg _ => "FRM.AGG"
  | .valButton _ => "VAL.BUTTON"
  | .valLed _ _ _ => "VAL.LED"
  | .valGpio _ _ => "VAL.GPIO"
  | .valAxis _ => "VAL.AXIS"
  | .parStart => "PAR.START"
  | .parSkip _ => "PAR.SKIP"
  | .parSeq _ => "PAR.SEQ"
  | .parTag _ => "PAR.TAG"
  | .parLenHi _ => "PAR.LENHI"
  | .parLenLo _ => "PAR.LENLO"
  | .parEven _ => "PAR.EVEN"
  | .parOdd _ => "PAR.ODD"
  | .dspLedDataOff _ => "DSP.LED.DATA_OFF"
  | .dspLedDataOn _ => "DSP.LED.DATA_ON"
  | .dspLedErrOff _ => "DSP.LED.ERR_OFF"
  | .dspLedErrOn _ => "DSP.LED.ERR_ON"
  | .dspSerial _ => "DSP.SERIAL"
  | .dspNop _ _ => "DSP.NOP"
  | .linTermCr => "LIN.TERM.CR"
  | .linTermLf => "LIN.TERM.LF"
  | .linChar _ => "LIN.CHAR"
  | .linHello => "LIN.HELLO"
  | .linDataOff => "LIN.DATA_OFF"
  | .linDataOn => "LIN.DATA_ON"
  | .linErrOff => "LIN.ERR_OFF"
  | .linErrOn => "LIN.ERR_ON"
  | .linNoMatch _ => "LIN.NOMATCH"
  | .reset => "RESET"

/-! ### Words numbered as opcode_table.json numbers them -/

/-- The `n` bytes of `w`, the most significant first. -/
def bytesOfNat : Nat → Nat → List Byte
  | 0, _ => []
  | n + 1, w => BitVec.ofNat 8 (w / 256 ^ n) :: bytesOfNat n w

/-- A framer request with every operand byte zero, at the least length its form has (log 12). -/
def zeroFramerRequest (sel : Nat) : List Byte :=
  BitVec.ofNat 8 sel :: (if sel = 2 then List.replicate 14 0#8 else [0#8])

/-- The format and selector a table word stands for. The table's words do not name their format, so equal widths
are told apart by value (log 12): 8 bits is a framer selector below 3, else a console byte; 16 bits is a parser word
below 0x700, else a dispatcher word; no bits is the `Reset` event; any other width is a line text. -/
def tableSelector (nbits w : Nat) : Format × List Byte :=
  if nbits = 0 then (.event, [])
  else if nbits = 2 ∨ (nbits = 8 ∧ w < 3) then (.frm, zeroFramerRequest w)
  else if nbits = 8 then (.linByte, bytesOfNat 1 w)
  else if nbits = 11 ∨ (nbits = 16 ∧ w < 0x700) then (.par, bytesOfNat 2 w)
  else if nbits = 16 then (.dsp, bytesOfNat 2 w)
  else (.linText, bytesOfNat (nbits / 8) w)

/-- The operation this decoder reads from a table word, at the default parameters (the table gives the row of
`DSP.SERIAL` "at the parameter's default", R91). -/
def decodeTableWord (nbits w : Nat) : Option Instr :=
  match decode Config.defaults (tableSelector nbits w).1 (tableSelector nbits w).2 with
  | .ok i => some i
  | .error _ => none

end Sys2Proof
end

