-- ==== Sys2Proof/Machine/State.lean ====
section
/-! DEFINITION. The state of PKT (10_state.md R20 lists it whole), the events that cross its ports (00_scope.md R9), the
reasons a step can stop, and the state after reset (70_reset_and_hazards.md R220). -/

namespace Sys2Proof.Machine

/-- Which LED an actuator command sets (R9): `SetDataLed` or `SetErrLed`. -/
inductive ActTarget where
  | dataLed
  | errLed
deriving DecidableEq, Repr

/-- The output events of R9. -/
inductive OutEvent where
  /-- `link_tx(b)`: one byte handed to `linkTransmit`. -/
  | linkTx (b : Byte)
  /-- `con_tx(b)`: one byte handed to `consoleTransmit`. -/
  | conTx (b : Byte)
  /-- `act(target, v)`, 1 = on, 0 = off. -/
  | act (target : ActTarget) (v : Bit)
  /-- `dispatch(tag, data)`, from the parser to the dispatcher, kept in the trace. -/
  | dispatch (tag data : Byte)
deriving DecidableEq, Repr

/-- The input events: the four of R9, then the model's own calls at an inner boundary (DESIGN CHOICE, log 4). -/
inductive InEvent where
  /-- `Reset`. -/
  | reset
  /-- `LinkRx(b)`. -/
  | linkRx (b : Byte)
  /-- `ConRx(b)`. -/
  | conRx (b : Byte)
  /-- `FrmCmd(c)`: the command as the bytes of its request (log 6). -/
  | frmCmd (request : List Byte)
  /-- The model's own: a `(tag, data)` pair handed to the dispatcher alone. -/
  | dspCall (tag data : Byte)
  /-- The model's own: a line text handed to the classification alone. -/
  | lineCall (text : List Byte)
  /-- The model's own: a function operation (`HEX.*`, `SER.*`, `VAL.*`) called alone. -/
  | funcCall (request : List Byte)
deriving DecidableEq, Repr

/-- What a function operation called alone returned (DESIGN CHOICE, log 5). -/
inductive Ret where
  | none
  | nibble (v : Nibble)
  | byte (v : Byte)
  | word (v : Word16)
deriving DecidableEq, Repr

/-- Bytes by index, in one canonical form: indices strictly rising, no byte equal to 0x00, which is what an unlisted
index reads as (log 8). The only memory of PKT with indices is the line buffer (20_memory.md R50). -/
abbrev Memory := List Host.Cell

/-- The state of PKT and of the model's two ends of it. -/
@[ext]
structure State where
  /-- The parameters this machine was built with (R7); no step writes them (log 1). -/
  cfg : Config
  /-- The parser state (R21). -/
  pstate : PState
  /-- The active type tag (R23). -/
  tag : Byte
  /-- Payload nibbles still to be consumed (R24). -/
  length : Byte
  /-- The data byte being assembled (R25). -/
  data : Byte
  /-- The line buffer, indices 0 to `LINE_CAP - 1` (R27). -/
  buf : Memory
  /-- The index of the next free byte of `buf` (R27). -/
  cursor : Nat
  /-- The payload buffer: its hex characters in order; `plen` is its length (R29, log 9). -/
  pbuf : List Byte
  /-- Input events presented and not yet handled, oldest first (R9, log 2). -/
  inq : List InEvent
  /-- Output events so far, oldest first (R223, log 3). -/
  out : List OutEvent
  /-- The last value a function operation called alone returned (log 5). -/
  ret : Ret
deriving DecidableEq, Repr

/-- The reasons the machine could fault. The hardware has none (R10, R200). -/
inductive Fault where
  /-- An index of `buf` at or above `LINE_CAP`, which does not exist (R13). Raised by LIN.CHAR and the termination in
  states with a cursor no run reaches (R27). Safe: the model stops where the spec has no behaviour to follow (log 10). -/
  | bufIndexOutOfRange
deriving DecidableEq, Repr

/-- The reasons the model refuses: all at its boundary (R10, R122). -/
inductive Refusal where
  /-- Raised by an arm of exec whose operation has no meaning yet. Safe: nothing is claimed of it. -/
  | notModelled (mnemonic : String)
  /-- Raised by FRM.SINGLE, SER.BYTE, SER.WORD (and FRM.AGG at a capacity R7 forbids) when the payload would number more
  than `PAYLOAD_CAP` characters (R122). Safe: "the refusal errs toward unprovable". -/
  | payloadOverflow
  /-- Raised by step when the request at the head of the queue names no operation: an operand outside its width, framer
  selector 3, a malformed request (R122, log 13). Safe: nothing is claimed of it. -/
  | badRequest (reason : DecodeError)
  /-- Raised by step when the parameters break R7's constraints (R10). Safe: nothing is claimed of such a machine. -/
  | badParameters
deriving DecidableEq, Repr

/-- The state after the `Reset` event of a PKT built with the parameters `c` (R220): `Idle`, an empty line, an empty
payload buffer. DESIGN CHOICE (log 7, log 8): `tag`, `length`, `data` and the bytes of `buf`, which R220 leaves
unspecified, are zero. -/
def State.resetWith (c : Config) : State :=
  { cfg := c, pstate := .idle, tag := 0x00#8, length := 0x00#8, data := 0x00#8, buf := [], cursor := 0, pbuf := [],
    inq := [], out := [], ret := .none }

/-- The state after reset at the default parameters. -/
def State.reset : State := State.resetWith Config.defaults

end Sys2Proof.Machine
end

