-- ==== Sys2Proof/Machine/Ops.lean ====
section
/-! DEFINITION. The named operations every meaning is written over: memory by index, the registers, the output list,
sequencing. PKT has no exception (60_exceptions.md R200) and no trap entry or return (R205), so no operation here takes
one. -/

namespace Sys2Proof.Machine

/-- The three outcomes of a step of this machine. -/
abbrev Result := Host.Outcome State Fault Refusal

/-- `a ; b` of R13: do the second in the state the first leaves; a fault or a refusal ends both. -/
def andThen (r : Result) (k : State → Result) : Result :=
  match r with
  | .next s => k s
  | .fault e => .fault e
  | .refused e => .refused e

/-! ### Bytes by index -/

/-- What an index that is not listed reads as. DESIGN CHOICE (log 8): 0x00. -/
def Memory.unlisted : Byte := 0x00#8

/-- `MemRead(buf, i, 1)` of R13. -/
def Memory.read : Memory → Nat → Byte
  | [], _ => Memory.unlisted
  | (a, v) :: rest, i => if a = i then v else Memory.read rest i

/-- Insert a listed byte at its place in the rising order, over an old one. -/
def Memory.insert : Memory → Nat → Byte → Memory
  | [], i, v => [(i, v)]
  | (a, w) :: rest, i, v =>
    if i < a then (i, v) :: (a, w) :: rest
    else if i = a then (i, v) :: rest
    else (a, w) :: Memory.insert rest i v

/-- Take an index off the list. -/
def Memory.erase : Memory → Nat → Memory
  | [], _ => []
  | (a, w) :: rest, i => if a = i then rest else (a, w) :: Memory.erase rest i

/-- `MemWrite(buf, i, 1, v)` of R13, keeping the canonical form: the byte an unlisted index reads as is not listed. -/
def Memory.write (m : Memory) (i : Nat) (v : Byte) : Memory :=
  if v = Memory.unlisted then Memory.erase m i else Memory.insert m i v

/-- The canonical form: indices strictly rising, no listed byte equal to what an unlisted index reads as. -/
def Memory.wf : Memory → Bool
  | [] => true
  | [(_, v)] => decide (v ≠ Memory.unlisted)
  | (a, v) :: (b, w) :: rest => decide (v ≠ Memory.unlisted) && decide (a < b) && Memory.wf ((b, w) :: rest)

/-! ### Registers -/

def State.setPstate (s : State) (p : PState) : State := { s with pstate := p }
def State.setTag (s : State) (v : Byte) : State := { s with tag := v }
def State.setLength (s : State) (v : Byte) : State := { s with length := v }
def State.setData (s : State) (v : Byte) : State := { s with data := v }
def State.setBuf (s : State) (m : Memory) : State := { s with buf := m }
def State.setCursor (s : State) (n : Nat) : State := { s with cursor := n }
def State.setPbuf (s : State) (cs : List Byte) : State := { s with pbuf := cs }
def State.setInq (s : State) (es : List InEvent) : State := { s with inq := es }
def State.setRet (s : State) (r : Ret) : State := { s with ret := r }

/-- `plen`, the number of hex characters in `pbuf` (R29). -/
def State.plen (s : State) : Nat := s.pbuf.length

/-! ### Output -/

/-- Append output events to the trace, in emission order (R61). -/
def State.emitAll (s : State) (es : List OutEvent) : State := { s with out := s.out ++ es }

/-- `emit(port, ...)` of R13. -/
def State.emit (s : State) (e : OutEvent) : State := s.emitAll [e]

/-- `emit(link_tx, b)` for each byte in order. -/
def State.emitLink (s : State) (bs : List Byte) : State := s.emitAll (bs.map OutEvent.linkTx)

/-! ### The buffers -/

/-- `buf[i] <- v`. An index at or above `LINE_CAP` does not exist (R13, log 10). -/
def bufWrite (i : Nat) (v : Byte) (s : State) : Result :=
  if i < s.cfg.lineCap then .next (s.setBuf (s.buf.write i v)) else .fault .bufIndexOutOfRange

/-- `buf[0 .. n-1]` with `n` the least index of a NUL (R184). After a termination there is one. -/
def lineText (s : State) : List Byte :=
  ((List.range s.cfg.lineCap).map s.buf.read).takeWhile (fun b => b != nulByte)

/-- Append characters to `pbuf`; more than `PAYLOAD_CAP` of them refuses the command (R110, R122). -/
def pbufAppend (cs : List Byte) (s : State) : Result :=
  if s.plen + cs.length ≤ s.cfg.payloadCap then .next (s.setPbuf (s.pbuf ++ cs)) else .refused .payloadOverflow

end Sys2Proof.Machine
end

