-- ==== Sys2Proof/Machine/Dsp.lean ====
section
/-! DEFINITION. The action dispatcher (44_action_dispatcher.md): combinational, no register written, at most one output
event. -/

namespace Sys2Proof.Machine

/-- `DSP.LED.DATA_OFF` (R171): `act(SetDataLed, 0)`; the data byte's unnamed bits are ignored. -/
def execDspLedDataOff (_d : Byte) (s : State) : Result := .next (s.emit (.act .dataLed 0#1))

/-- `DSP.LED.DATA_ON` (R172). -/
def execDspLedDataOn (_d : Byte) (s : State) : Result := .next (s.emit (.act .dataLed 1#1))

/-- `DSP.LED.ERR_OFF` (R173). UNVERIFIED: the sense of bit 0 is the spec's decision D12 (log 14). -/
def execDspLedErrOff (_d : Byte) (s : State) : Result := .next (s.emit (.act .errLed 0#1))

/-- `DSP.LED.ERR_ON` (R174). UNVERIFIED: D12 (log 14). -/
def execDspLedErrOn (_d : Byte) (s : State) : Result := .next (s.emit (.act .errLed 1#1))

/-- `DSP.SERIAL` (R175): the byte goes out raw. UNVERIFIED: the form of the echo is the spec's decision D11 (log 14). -/
def execDspSerial (d : Byte) (s : State) : Result := .next (s.emit (.linkTx d))

/-- `DSP.NOP` (R176): nothing. -/
def execDspNop (_t _d : Byte) (s : State) : Result := .next s

/-- `dsp(t, d)` of R170, the decision order inside a `LinkRx` step. -/
def dspRun (t d : Byte) (s : State) : Result :=
  if t = tagLed then
    if d.getLsbD 4 then
      if d.getLsbD 0 then execDspLedErrOn d s else execDspLedErrOff d s
    else
      if d.getLsbD 0 then execDspLedDataOn d s else execDspLedDataOff d s
  else if t = s.cfg.tagSerial then execDspSerial d s
  else execDspNop t d s

end Sys2Proof.Machine
end

