-- ==== Sys2Proof/Machine/Flags.lean ====
section
/-! DEFINITION. PKT has no condition flags (10_state.md R32): no operation writes one. What it computes from raw input
flags are the four derived values of the framer, 42_packet_framer.md R125 to R128. Their polarities are kept as the
formulas give them (70_reset_and_hazards.md R236). -/

namespace Sys2Proof.Machine

/-- `VAL.BUTTON(btn) = zext_8(1 - btn)` (R125). -/
def buttonValue (btn : Bit) : Byte := (1#1 - btn).setWidth 8

/-- `VAL.LED(conn, eled, dled) = zext_8(conn ++ eled ++ (1 - dled))` (R126). -/
def ledValue (conn eled dled : Bit) : Byte := (conn ++ eled ++ (1#1 - dled)).setWidth 8

/-- `VAL.GPIO(gpio1, gpio2) = zext_8(gpio2 ++ gpio1)` (R127). -/
def gpioValue (gpio1 gpio2 : Bit) : Byte := (gpio2 ++ gpio1).setWidth 8

/-- `VAL.AXIS(a) = a & 0x0FFF` (R128). -/
def axisValue (a : Word16) : Word16 := a &&& 0x0FFF#16

end Sys2Proof.Machine
end

