-- ==== Sys2Proof/Machine/Ser.lean ====
section
/-! DEFINITION. The payload serializer (41_payload_serializer.md). -/

namespace Sys2Proof.Machine

/-- `SER.BYTE` (R110): high nibble, then low nibble, appended to `pbuf`. -/
def execSerByte (v : Byte) (s : State) : Result := pbufAppend (hexOfByte v) s

/-- `SER.WORD` (R111): the low byte first, then the high byte, each as `SER.BYTE`. -/
def execSerWord (v : Word16) (s : State) : Result :=
  andThen (execSerByte (loByte v) s) (execSerByte (hiByte v))

/-- `SER.CHAR` (R112): straight to the link, `pbuf` not touched. UNVERIFIED: the nibble order is the spec's decision D15
(log 14). -/
def execSerChar (ch : Byte) (s : State) : Result := .next (s.emitLink (hexOfByte ch))

/-- Serialize payload items in order (R120). -/
def serItems : List Item → State → Result
  | [], s => .next s
  | .byte v :: rest, s => andThen (execSerByte v s) (serItems rest)
  | .word v :: rest, s => andThen (execSerWord v s) (serItems rest)

end Sys2Proof.Machine
end

