-- ==== Sys2Proof/Machine/Frm.lean ====
section
/-! DEFINITION. The packet framer (42_packet_framer.md): three commands on the link (R123) and the four derived values. -/

namespace Sys2Proof.Machine

/-- The end of every packet: `}`, CR, LF (30_encoding.md R73, R74, R75). -/
def closeFrame (s : State) : State := s.emitLink [endByte, crByte, lfByte]

/-- `FRM.SINGLE` (R120): the payload is serialized first, so that one over `PAYLOAD_CAP` is refused before anything is
emitted (R122). -/
def execFrmSingle (t : Byte) (items : List Item) (s : State) : Result :=
  andThen (serItems items (s.setPbuf [])) fun s =>
    .next ((closeFrame ((s.emitLink [startByte, t, sepSingle]).emitLink s.pbuf)).setPbuf [])

/-- The characters of a string, each by `SER.CHAR` (R121). -/
def serChars : List Byte → State → Result
  | [], s => .next s
  | ch :: rest, s => andThen (execSerChar ch s) (serChars rest)

/-- `FRM.STRING` (R121). UNVERIFIED: the framing is the spec's decision D15 (log 14). R123: it starts and ends with `pbuf`
empty. -/
def execFrmString (t : Byte) (str : List Byte) (s : State) : Result :=
  andThen (serChars str ((s.setPbuf []).emitLink [startByte, t, sepSingle])) fun s => .next (closeFrame s)

/-- `sub(t, items)` of R124: one sub-field `t : payload ,` of the aggregated packet. -/
def subField (t : Byte) (items : List Item) (s : State) : Result :=
  andThen (serItems items (s.setPbuf [])) fun s =>
    .next (((s.emitLink [t, sepKey]).emitLink s.pbuf).emitLink [sepSingle])

/-- `FRM.AGG` (R124). It ends with `pbuf` empty (R123 (d), log 17). UNVERIFIED: the width of each sub-field is the spec's
decision D14 (log 14). -/
def execFrmAgg (a : AggOperands) (s : State) : Result :=
  andThen (subField s.cfg.tagButton [.byte (buttonValue a.btn)] (s.emitLink [startByte])) fun s =>
  andThen (subField tagLed [.byte (ledValue a.conn a.eled a.dled)] s) fun s =>
  andThen (subField s.cfg.tagGpio [.byte (gpioValue a.gpio1 a.gpio2)] s) fun s =>
  andThen (subField s.cfg.tagTemp [.word a.temp] s) fun s =>
  andThen (subField s.cfg.tagAccel [.word (axisValue a.ax), .word (axisValue a.ay), .word (axisValue a.az)] s) fun s =>
  .next ((closeFrame s).setPbuf [])

/-- `VAL.BUTTON` called alone (R125). -/
def execValButton (btn : Bit) (s : State) : Result := .next (s.setRet (.byte (buttonValue btn)))

/-- `VAL.LED` called alone (R126). -/
def execValLed (conn eled dled : Bit) (s : State) : Result := .next (s.setRet (.byte (ledValue conn eled dled)))

/-- `VAL.GPIO` called alone (R127). -/
def execValGpio (gpio1 gpio2 : Bit) (s : State) : Result := .next (s.setRet (.byte (gpioValue gpio1 gpio2)))

/-- `VAL.AXIS` called alone (R128). -/
def execValAxis (a : Word16) (s : State) : Result := .next (s.setRet (.word (axisValue a)))

end Sys2Proof.Machine
end

