-- ==== Sys2Proof/Machine/Hex.lean ====
section
/-! DEFINITION. The hex codec as operations (40_hex_codec.md): "Pure function, no state". Called alone, each leaves its
result in `ret` (log 5). -/

namespace Sys2Proof.Machine

/-- `HEX.ENC` (R100). -/
def execHexEnc (n : Nibble) (s : State) : Result := .next (s.setRet (.byte (enc n)))

/-- `HEX.DEC` (R101, R102). -/
def execHexDec (c : Byte) (s : State) : Result := .next (s.setRet (.nibble (dec c)))

end Sys2Proof.Machine
end

