-- ==== Sys2Proof/Machine/Lin.lean ====
section
/-! DEFINITION. The console line session (45_line_session.md). -/

namespace Sys2Proof.Machine

/-- `LIN.HELLO` (R185): `h`, `i` on the console. UNVERIFIED: nothing after them is the spec's decision D10 (log 14). -/
def execLinHello (s : State) : Result := .next (s.emitAll [.conTx 0x68#8, .conTx 0x69#8])

/-- `LIN.DATA_OFF` (R186). -/
def execLinDataOff (s : State) : Result := .next (s.emit (.act .dataLed 0#1))

/-- `LIN.DATA_ON` (R187): a set, not a toggle (90_conflicts.md C9). -/
def execLinDataOn (s : State) : Result := .next (s.emit (.act .dataLed 1#1))

/-- `LIN.ERR_OFF` (R188). -/
def execLinErrOff (s : State) : Result := .next (s.emit (.act .errLed 0#1))

/-- `LIN.ERR_ON` (R189). -/
def execLinErrOn (s : State) : Result := .next (s.emit (.act .errLed 1#1))

/-- `LIN.NOMATCH` (R190): no effect. -/
def execLinNoMatch (_text : List Byte) (s : State) : Result := .next s

/-- `classify()` of R184 on a line text. UNVERIFIED: whole-line, case-sensitive equality is the spec's decision D9
(log 14). -/
def classify (text : List Byte) (s : State) : Result :=
  if text = textHello then execLinHello s
  else if text = textDataOff then execLinDataOff s
  else if text = textDataOn then execLinDataOn s
  else if text = textErrOff then execLinErrOff s
  else if text = textErrOn then execLinErrOn s
  else execLinNoMatch text s

/-- `terminate()` of R180 and R183: the NUL at the cursor, the classification of the buffer as it then stands, the
cursor back to 0; the bytes of `buf` are not erased. -/
def terminate (s : State) : Result :=
  andThen (bufWrite s.cursor nulByte s) fun s =>
  andThen (classify (lineText s) s) fun s =>
  .next (s.setCursor 0)

/-- `LIN.TERM` on CR (R181): the terminator is not stored. -/
def execLinTermCr (s : State) : Result := terminate s

/-- `LIN.TERM` on LF (R181). -/
def execLinTermLf (s : State) : Result := terminate s

/-- `LIN.CHAR` (R182): store, advance, then the capacity test. UNVERIFIED: that order is the spec's decision D8 (log 14). -/
def execLinChar (b : Byte) (s : State) : Result :=
  andThen (bufWrite s.cursor b s) fun s =>
  if s.cursor + 1 = s.cfg.lineCap - 1 then terminate (s.setCursor (s.cursor + 1))
  else .next (s.setCursor (s.cursor + 1))

end Sys2Proof.Machine
end

