-- ==== Sys2Proof/Machine/Par.lean ====
section
/-! DEFINITION. The eight transitions of the packet parser (43_packet_parser.md R140). A transition's meaning does not test
`pstate`: the state is part of its selector word (R91), and the step selects by it (log 11). -/

namespace Sys2Proof.Machine

/-- `PAR.START` (R141). -/
def execParStart (s : State) : Result := .next (s.setPstate .sequenceNumber)

/-- `PAR.SKIP` (R142): "nothing; `pstate <- Idle`". -/
def execParSkip (_b : Byte) (s : State) : Result := .next (s.setPstate .idle)

/-- `PAR.SEQ` (R143): the byte is stored nowhere. -/
def execParSeq (_b : Byte) (s : State) : Result := .next (s.setPstate .packetId)

/-- `PAR.TAG` (R144). -/
def execParTag (b : Byte) (s : State) : Result := .next ((s.setTag b).setPstate .payloadSizeHigh)

/-- `PAR.LENHI` (R145): `length <- zext_8(dec(b))`. -/
def execParLenHi (b : Byte) (s : State) : Result :=
  .next ((s.setLength ((dec b).setWidth 8)).setPstate .payloadSizeLow)

/-- `PAR.LENLO` (R146): no test of the length here. -/
def execParLenLo (b : Byte) (s : State) : Result :=
  .next ((s.setLength (shiftIn s.length b)).setPstate .payloadNibbleEven)

/-- `length <- (length - 1) mod 256 ; if length = 0 then pstate <- Idle else pstate <- p` (R147, R148). UNVERIFIED: the
wrap of a zero length is the spec's decision D3 (log 14). -/
def countNibble (p : PState) (s : State) : State :=
  (s.setLength (s.length - 1#8)).setPstate (if s.length - 1#8 = 0#8 then .idle else p)

/-- `PAR.EVEN` (R147): no output in either branch. -/
def execParEven (b : Byte) (s : State) : Result :=
  .next (countNibble .payloadNibbleOdd (s.setData ((dec b).setWidth 8)))

/-- `PAR.ODD` (R148): shift in, dispatch (DSP runs at once), decrement, test. -/
def execParOdd (b : Byte) (s : State) : Result :=
  andThen (dspRun s.tag (shiftIn s.data b)
      ((s.setData (shiftIn s.data b)).emit (.dispatch s.tag (shiftIn s.data b)))) fun s =>
    .next (countNibble .payloadNibbleEven s)

end Sys2Proof.Machine
end

