-- ==== Sys2Proof/Machine/Rst.lean ====
section
/-! DEFINITION. The `Reset` event (70_reset_and_hazards.md R220, R221). -/

namespace Sys2Proof.Machine

/-- `RESET`: `Idle`, an empty line, an empty payload buffer, nothing emitted. DESIGN CHOICE (log 7, log 8): the registers
and bytes R220 leaves unspecified take the values they have in State.reset. What lies outside the block stays: the
parameters, the events still to come, the trace (log 21). -/
def execReset (s : State) : Result :=
  .next { s with pstate := .idle, tag := 0x00#8, length := 0x00#8, data := 0x00#8, buf := [], cursor := 0, pbuf := [] }

end Sys2Proof.Machine
end

