-- ==== Sys2Proof/Machine/Dispatch.lean ====
section
/-! DEFINITION. One arm per operation of 30_encoding.md R90, in its order. -/

namespace Sys2Proof.Machine

def exec (i : Instr) (s : State) : Host.Outcome State Fault Refusal :=
  match i with
  | .hexEnc n => Sys2Proof.Machine.execHexEnc n s
  | .hexDec c => Sys2Proof.Machine.execHexDec c s
  | .serByte v => Sys2Proof.Machine.execSerByte v s
  | .serWord v => Sys2Proof.Machine.execSerWord v s
  | .serChar ch => Sys2Proof.Machine.execSerChar ch s
  | .frmSingle t items => Sys2Proof.Machine.execFrmSingle t items s
  | .frmString t str => Sys2Proof.Machine.execFrmString t str s
  | .frmAgg a => Sys2Proof.Machine.execFrmAgg a s
  | .valButton btn => Sys2Proof.Machine.execValButton btn s
  | .valLed conn eled dled => Sys2Proof.Machine.execValLed conn eled dled s
  | .valGpio gpio1 gpio2 => Sys2Proof.Machine.execValGpio gpio1 gpio2 s
  | .valAxis a => Sys2Proof.Machine.execValAxis a s
  | .parStart => Sys2Proof.Machine.execParStart s
  | .parSkip b => Sys2Proof.Machine.execParSkip b s
  | .parSeq b => Sys2Proof.Machine.execParSeq b s
  | .parTag b => Sys2Proof.Machine.execParTag b s
  | .parLenHi b => Sys2Proof.Machine.execParLenHi b s
  | .parLenLo b => Sys2Proof.Machine.execParLenLo b s
  | .parEven b => Sys2Proof.Machine.execParEven b s
  | .parOdd b => Sys2Proof.Machine.execParOdd b s
  | .dspLedDataOff d => Sys2Proof.Machine.execDspLedDataOff d s
  | .dspLedDataOn d => Sys2Proof.Machine.execDspLedDataOn d s
  | .dspLedErrOff d => Sys2Proof.Machine.execDspLedErrOff d s
  | .dspLedErrOn d => Sys2Proof.Machine.execDspLedErrOn d s
  | .dspSerial d => Sys2Proof.Machine.execDspSerial d s
  | .dspNop t d => Sys2Proof.Machine.execDspNop t d s
  | .linTermCr => Sys2Proof.Machine.execLinTermCr s
  | .linTermLf => Sys2Proof.Machine.execLinTermLf s
  | .linChar b => Sys2Proof.Machine.execLinChar b s
  | .linHello => Sys2Proof.Machine.execLinHello s
  | .linDataOff => Sys2Proof.Machine.execLinDataOff s
  | .linDataOn => Sys2Proof.Machine.execLinDataOn s
  | .linErrOff => Sys2Proof.Machine.execLinErrOff s
  | .linErrOn => Sys2Proof.Machine.execLinErrOn s
  | .linNoMatch text => Sys2Proof.Machine.execLinNoMatch text s
  | .reset => Sys2Proof.Machine.execReset s

end Sys2Proof.Machine
end

