-- ==== Sys2Proof/Machine/Fetch.lean ====
section
/-! DEFINITION. How an input event becomes a selector (30_encoding.md R91), and how a selector is presented as the next
input event. PKT fetches no instructions (20_memory.md R63): what takes the place of a fetch is the next input event,
read against `pstate`. -/

namespace Sys2Proof.Machine

/-- The format and selector bytes an event presents in a state: a link byte is read with the parser state above it. -/
def selectorOf (s : State) : InEvent → Format × List Byte
  | .reset => (.event, [])
  | .linkRx b => (.par, [s.pstate.code, b])
  | .conRx b => (.linByte, [b])
  | .frmCmd request => (.frm, request)
  | .dspCall t d => (.dsp, [t, d])
  | .lineCall text => (.linText, text)
  | .funcCall request => (.func, request)

/-- The state in which the next event presents the given selector: a parser word also sets `pstate`, which is part of
it. A selector no event can present leaves the state as it is. -/
def State.presentSelector (s : State) : Format × List Byte → State
  | (.event, []) => s.setInq (.reset :: s.inq)
  | (.par, [code, b]) =>
    match PState.ofCode code with
    | some p => (s.setPstate p).setInq (.linkRx b :: s.inq)
    | none => s
  | (.linByte, [b]) => s.setInq (.conRx b :: s.inq)
  | (.frm, request) => s.setInq (.frmCmd request :: s.inq)
  | (.dsp, [t, d]) => s.setInq (.dspCall t d :: s.inq)
  | (.linText, text) => s.setInq (.lineCall text :: s.inq)
  | (.func, request) => s.setInq (.funcCall request :: s.inq)
  | _ => s

end Sys2Proof.Machine
end

