-- ==== Sys2Proof/Machine/Step.lean ====
section
/-! DEFINITION. One step: the oldest input event waiting, handled to completion (00_scope.md R9, 20_memory.md R59). -/

namespace Sys2Proof.Machine

/-- Take the oldest event, read its selector in the present state, decode it and run the operation. With no event the
machine waits: the state stays (log 2). Parameters that break R7 are refused (R10); a request that names no operation is
refused (R122). -/
def step (s : State) : Host.Outcome State Fault Refusal :=
  if s.cfg.ok then
    match s.inq with
    | [] => .next s
    | e :: rest =>
      match decode s.cfg (selectorOf s e).1 (selectorOf s e).2 with
      | .ok i => exec i (s.setInq rest)
      | .error r => .refused (.badRequest r)
  else .refused .badParameters

/-- The state whose next step runs the operation of a table word: the word's selector presented as the next input event
(log 12). -/
def State.withFetchWord (s : State) (nbits w : Nat) : State := s.presentSelector (tableSelector nbits w)

end Sys2Proof.Machine
end

