-- ==== Sys2Proof/Machine/ClosedLoop.lean ====
section
/-! DEFINITION. The closed loop of 10_state.md R31: the actuator state is outside PKT, which writes it through `act` events
and reads it through the operands `eled` and `dled` the environment samples when it issues `FRM.AGG` (R31, R177,
20_memory.md R63). PKT keeps no copy, so the last command is read from the trace; the raw level it leads to is the open
function of D22 (log 19). -/

namespace Sys2Proof.Machine

/-- The on/off value of the last command to an LED in a trace, if there was one. -/
def lastCommand (target : ActTarget) : List OutEvent → Option Bit
  | [] => none
  | e :: rest =>
    match lastCommand target rest with
    | some v => some v
    | none =>
      match e with
      | .act t v => if t = target then some v else none
      | .linkTx _ => none
      | .conTx _ => none
      | .dispatch _ _ => none

/-- The raw level the environment reads: the open function of the last command, or the given start-up level while no
command has been sent (R221: `Reset` does not switch the LEDs). -/
def sampledLevel (raw : Bit → Bit) (atStart : Bit) (target : ActTarget) (s : State) : Bit :=
  match lastCommand target s.out with
  | some v => raw v
  | none => atStart

/-- The operands of the status packet a closed-loop environment issues: `dled` and `eled` are what it samples. -/
def closedLoopOperands (a : AggOperands) (s : State) : AggOperands :=
  { a with dled := sampledLevel Config.dledRaw a.dled .dataLed s, eled := sampledLevel Config.eledRaw a.eled .errLed s }

end Sys2Proof.Machine
end

