-- ==== Sys2Proof/Safety.lean ====
section
/-! DEFINITION. What claims are stated in: runs of several steps, the invariant of the spec's own state
(10_state.md R27, 43_packet_parser.md R155), and which registers are live (R25, R28). -/

namespace Sys2Proof.Machine

/-- `n` steps, ending early at a fault or a refusal (70_reset_and_hazards.md R223). -/
def run : Nat → State → Result
  | 0, s => .next s
  | n + 1, s => andThen (step s) (run n)

/-- The state with further input events presented after those that wait. -/
def State.present (s : State) (es : List InEvent) : State := s.setInq (s.inq ++ es)

/-- R155's invariants of the parser between steps that one state can show: in `PayloadNibbleOdd` at least one nibble is
to come and `data[7:4] = 0`; in `PayloadSizeLow`, `length[7:4] = 0`. -/
abbrev State.parserInv (s : State) : Prop :=
  (s.pstate = .payloadNibbleOdd → 1 ≤ s.length.toNat ∧ s.data.toNat < 16) ∧
  (s.pstate = .payloadSizeLow → s.length.toNat < 16)

/-- R27's invariant of the line session, `cursor <= LINE_CAP - 2`, with the buffer in canonical form and inside its
capacity, and no terminator stored (R181). -/
abbrev State.lineInv (s : State) : Prop :=
  s.cursor + 2 ≤ s.cfg.lineCap ∧ s.buf.wf = true ∧ (s.buf.all fun c => decide (c.1 < s.cfg.lineCap)) = true ∧
  (∀ i, i < s.cursor → s.buf.read i ≠ crByte ∧ s.buf.read i ≠ lfByte)

/-- R29's bound on the payload buffer; characters come in pairs (R58). -/
abbrev State.pbufInv (s : State) : Prop := s.plen ≤ s.cfg.payloadCap ∧ s.plen % 2 = 0

/-- The invariant of the machine. -/
abbrev State.inv (s : State) : Prop := s.cfg.ok = true ∧ s.parserInv ∧ s.lineInv ∧ s.pbufInv

/-- The four input events of R9 that cross a port of PKT, apart from the model's own inner calls. -/
def ofPort : InEvent → Bool
  | .reset => true
  | .linkRx _ => true
  | .conRx _ => true
  | .frmCmd _ => true
  | .dspCall _ _ => false
  | .lineCall _ => false
  | .funcCall _ => false

/-- The parser states in which `tag` is still to be read (R25). -/
def tagLive (p : PState) : Bool :=
  decide (p = .payloadSizeHigh) || decide (p = .payloadSizeLow) || decide (p = .payloadNibbleEven) || decide (p = .payloadNibbleOdd)

/-- The parser states in which `length` is still to be read (R25). -/
def lengthLive (p : PState) : Bool :=
  decide (p = .payloadSizeLow) || decide (p = .payloadNibbleEven) || decide (p = .payloadNibbleOdd)

/-- The parser state in which `data` is still to be read (R25). -/
def dataLive (p : PState) : Bool := decide (p = .payloadNibbleOdd)

/-- Two states that differ at most in registers and bytes the spec calls unobservable: `tag`, `length`, `data` where they
are written before they are read (R25), and the bytes of `buf` at or above the cursor (R28). -/
structure SameLive (s t : State) : Prop where
  cfg : s.cfg = t.cfg
  pstate : s.pstate = t.pstate
  cursor : s.cursor = t.cursor
  pbuf : s.pbuf = t.pbuf
  inq : s.inq = t.inq
  out : s.out = t.out
  ret : s.ret = t.ret
  tag : tagLive s.pstate = true → s.tag = t.tag
  length : lengthLive s.pstate = true → s.length = t.length
  data : dataLive s.pstate = true → s.data = t.data
  buf : ∀ i, i < s.cursor → s.buf.read i = t.buf.read i

end Sys2Proof.Machine
end

