-- ==== Sys2Proof/Certificates/Slice0/Obligations.lean ====
section
/-! DEFINITION. The statements for the provers. The functions of namespace SpecText say the spec's formulas over numbers
and characters, apart from the model's own definitions. -/

namespace Sys2Proof.SpecText

open Sys2Proof.Machine

/-- R100: `0x30 + n` up to 9, else `0x41 + (n - 10)`. -/
def hexDigit (n : Nat) : Nat := if n ≤ 9 then 0x30 + n else 0x41 + (n - 10)

/-- R101: the digit branch, else `w mod 16` of the integer `w = (c & 0x5F) - 0x41 + 10`. -/
def digitValue (c : Byte) : Nat :=
  if 0x30 ≤ c.toNat ∧ c.toNat ≤ 0x39 then c.toNat - 0x30
  else ((((c.toNat &&& 0x5F : Nat) : Int) - 0x41 + 10) % 16).toNat

/-- R78, outbound byte: `enc(v[7:4])`, `enc(v[3:0])`, over the number `v`. -/
def hexText (v : Nat) : List Byte := [BitVec.ofNat 8 (hexDigit (v / 16 % 16)), BitVec.ofNat 8 (hexDigit (v % 16))]

/-- R78, outbound word: the low byte's characters first. -/
def wordText (v : Nat) : List Byte := hexText (v % 256) ++ hexText (v / 256)

/-- The characters of a payload item (R120). -/
def itemText : Item → List Byte
  | .byte v => hexText v.toNat
  | .word v => wordText v.toNat

/-- Bytes on the link transmit stream. -/
def link (bs : List Byte) : List OutEvent := bs.map OutEvent.linkTx

/-- Characters as bytes (R12). -/
def ascii (cs : List Char) : List Byte := cs.map fun ch => BitVec.ofNat 8 ch.toNat

/-- R170 over numbers: the LED tag is `L`, bit 4 of the data names the LED, bit 0 the value; the serial tag echoes. -/
def dispatcherOutput (c : Config) (t d : Byte) : List OutEvent :=
  if t = 0x4C#8 then
    [.act (if d.toNat / 16 % 2 = 0 then .dataLed else .errLed) (BitVec.ofNat 1 (d.toNat % 2))]
  else if t = c.tagSerial then [.linkTx d] else []

/-- R184 over characters: what each word of the vocabulary emits, and every other text nothing. -/
def wordOutput (text : List Byte) : List OutEvent :=
  if text = ascii ['H', 'e', 'l', 'l', 'o'] then [.conTx 0x68#8, .conTx 0x69#8]
  else if text = ascii ['l', 'e', 'd', ' ', 'd', 'a', 't', 'a', ' ', 'o', 'f', 'f'] then [.act .dataLed 0#1]
  else if text = ascii ['l', 'e', 'd', ' ', 'd', 'a', 't', 'a', ' ', 'o', 'n'] then [.act .dataLed 1#1]
  else if text = ascii ['l', 'e', 'd', ' ', 'e', 'r', 'r', ' ', 'o', 'f', 'f'] then [.act .errLed 0#1]
  else if text = ascii ['l', 'e', 'd', ' ', 'e', 'r', 'r', ' ', 'o', 'n'] then [.act .errLed 1#1]
  else []

/-- The parser's registers as R157 writes them, over numbers. -/
structure ParserRegs where
  pstate : PState
  tag : Nat
  length : Nat
  data : Nat
deriving DecidableEq, Repr

/-- `par(S, b)` of R157, whole, over numbers; `v` is `dec(b)`. -/
def parser (r : ParserRegs) (b : Byte) : ParserRegs × Option (Nat × Nat) :=
  let v := digitValue b
  match r.pstate with
  | .idle => if b.toNat = 0x7B then ({ r with pstate := .sequenceNumber }, none) else (r, none)
  | .sequenceNumber => ({ r with pstate := .packetId }, none)
  | .packetId => ({ r with tag := b.toNat, pstate := .payloadSizeHigh }, none)
  | .payloadSizeHigh => ({ r with length := v, pstate := .payloadSizeLow }, none)
  | .payloadSizeLow => ({ r with length := (16 * r.length + v) % 256, pstate := .payloadNibbleEven }, none)
  | .payloadNibbleEven =>
    let l := (r.length + 255) % 256
    ({ r with data := v, length := l, pstate := if l = 0 then .idle else .payloadNibbleOdd }, none)
  | .payloadNibbleOdd =>
    let d := (16 * r.data + v) % 256
    let l := (r.length + 255) % 256
    ({ r with data := d, length := l, pstate := if l = 0 then .idle else .payloadNibbleEven }, some (r.tag, d))

/-- The registers of a state, over numbers. -/
def parserRegs (s : State) : ParserRegs := ⟨s.pstate, s.tag.toNat, s.length.toNat, s.data.toNat⟩

/-- What a dispatch puts in the trace: itself, then what the dispatcher emits (R148). -/
def dispatchOutput (c : Config) (td : Nat × Nat) : List OutEvent :=
  .dispatch (BitVec.ofNat 8 td.1) (BitVec.ofNat 8 td.2) ::
    dispatcherOutput c (BitVec.ofNat 8 td.1) (BitVec.ofNat 8 td.2)

/-- The nibble pairs of a payload as numbers; a last nibble without a partner is dropped (R151). -/
def pairs : List Byte → List Nat
  | a :: b :: rest => (16 * digitValue a + digitValue b) :: pairs rest
  | _ => []

/-- R152: `N = L` for a declared length `L >= 1`, and 256 for `L = 0`. -/
def payloadCount (l1 l0 : Byte) : Nat :=
  if 16 * digitValue l1 + digitValue l0 = 0 then 256 else 16 * digitValue l1 + digitValue l0

/-- The parser state a table word names: on a parser word the one its state code names, in the other formats `Idle`. -/
def wordPState (nbits w : Nat) : Option PState :=
  match tableSelector nbits w with
  | (.par, code :: _) => PState.ofCode code
  | _ => some .idle

end Sys2Proof.SpecText

open Sys2Proof Sys2Proof.Machine Sys2Proof.SpecText

/-! ### Hex codec, serializer, derived values -/

/-- R100: `HEX.ENC` answers the uppercase hex digit; it writes no state of PKT (`ret` is the model's, log 5). -/
def Obligations.HexEncGivesUppercaseDigit : Prop :=
  ∀ (n : Nibble) (s : State),
    exec (.hexEnc n) s = .next { s with ret := .byte (BitVec.ofNat 8 (hexDigit n.toNat)) }

/-- R101 on all 256 bytes. On bytes that are no hex digit the value rests on the spec's decision D4 (log 14). -/
def Obligations.HexDecGivesDigitValue : Prop :=
  ∀ (c : Byte) (s : State),
    exec (.hexDec c) s = .next { s with ret := .nibble (BitVec.ofNat 4 (digitValue c)) }

/-- R103: decoding an encoded nibble gives it back; encoding a decoded byte gives the byte back exactly for `0`..`9` and
`A`..`F`, the uppercase letter for `a`..`f`; the number of preimages of each nibble value outside 0x30..0x3F and in all.
The preimages that are no hex digit rest on the spec's decision D4 (log 14). -/
def Obligations.HexCodecLaw : Prop :=
  (∀ (n : Nibble) (s : State), ∃ t c, exec (.hexEnc n) s = .next t ∧ t.ret = .byte c ∧
    exec (.hexDec c) t = .next { t with ret := .nibble n }) ∧
  (∀ c : Byte, enc (dec c) = c ↔ (0x30 ≤ c.toNat ∧ c.toNat ≤ 0x39) ∨ (0x41 ≤ c.toNat ∧ c.toNat ≤ 0x46)) ∧
  (∀ c : Byte, 0x61 ≤ c.toNat → c.toNat ≤ 0x66 → (enc (dec c)).toNat = c.toNat - 0x20) ∧
  (∀ v : Nibble, ((List.range 256).filter fun c => decide ((c < 0x30 ∨ 0x3F < c) ∧ dec (BitVec.ofNat 8 c) = v)).length = 15 ∧
    ((List.range 256).filter fun c => decide (dec (BitVec.ofNat 8 c) = v)).length =
      15 + (if 3 ≤ v.toNat ∧ v.toNat ≤ 8 then 1 else 0) + (if v.toNat ≤ 9 then 1 else 0))

/-- R110: two characters appended, high nibble first, earlier content kept; over the capacity the call is refused (made
alone, that is the model's choice, log 13). -/
def Obligations.SerByteAppendsTwoCharacters : Prop :=
  ∀ (v : Byte) (s : State),
    (s.pbuf.length + 2 ≤ s.cfg.payloadCap → exec (.serByte v) s = .next { s with pbuf := s.pbuf ++ hexText v.toNat }) ∧
    (s.cfg.payloadCap < s.pbuf.length + 2 → exec (.serByte v) s = .refused .payloadOverflow)

/-- R111: four characters, low byte first; reading them back in that order gives the word (the format's law). The
refusal of a call made alone is the model's choice (log 13). -/
def Obligations.SerWordAppendsLowByteFirst : Prop :=
  ∀ (v : Word16) (s : State),
    (s.pbuf.length + 4 ≤ s.cfg.payloadCap → ∃ c0 c1 c2 c3,
      exec (.serWord v) s = .next { s with pbuf := s.pbuf ++ [c0, c1, c2, c3] } ∧
      [c0, c1, c2, c3] = hexText (v.toNat % 256) ++ hexText (v.toNat / 256) ∧
      v.toNat = 256 * (16 * digitValue c2 + digitValue c3) + (16 * digitValue c0 + digitValue c1)) ∧
    (s.cfg.payloadCap < s.pbuf.length + 4 → exec (.serWord v) s = .refused .payloadOverflow)

/-- R112: two link bytes, `pbuf` not touched. The nibble order is the spec's decision D15 (log 14). -/
def Obligations.SerCharGoesStraightToTheLink : Prop :=
  ∀ (ch : Byte) (s : State), exec (.serChar ch) s = .next { s with out := s.out ++ link (hexText ch.toNat) }

/-- R125 to R128: the four derived values, with the polarities of their formulas, left in `ret` (the model's, log 5). -/
def Obligations.DerivedValuesKeepTheirPolarity : Prop :=
  ∀ (s : State),
    (∀ btn : Bit, exec (.valButton btn) s = .next { s with ret := .byte (BitVec.ofNat 8 (1 - btn.toNat)) }) ∧
    (∀ conn eled dled : Bit, exec (.valLed conn eled dled) s =
      .next { s with ret := .byte (BitVec.ofNat 8 (4 * conn.toNat + 2 * eled.toNat + (1 - dled.toNat))) }) ∧
    (∀ gpio1 gpio2 : Bit, exec (.valGpio gpio1 gpio2) s =
      .next { s with ret := .byte (BitVec.ofNat 8 (2 * gpio2.toNat + gpio1.toNat)) }) ∧
    (∀ a : Word16, exec (.valAxis a) s = .next { s with ret := .word (BitVec.ofNat 16 (a.toNat % 0x1000)) })

/-! ### Framer -/

/-- R120 and R122: a single packet is `{` tag `,` payload `}` CR LF on the link; a payload over `PAYLOAD_CAP` is refused. -/
def Obligations.SinglePacketBytes : Prop :=
  ∀ (t : Byte) (items : List Item) (s : State),
    ((items.flatMap itemText).length ≤ s.cfg.payloadCap → exec (.frmSingle t items) s =
      .next { s with pbuf := [],
                     out := s.out ++ link ([0x7B#8, t, 0x2C#8] ++ items.flatMap itemText ++ [0x7D#8, 0x0D#8, 0x0A#8]) }) ∧
    (s.cfg.payloadCap < (items.flatMap itemText).length → exec (.frmSingle t items) s = .refused .payloadOverflow)

/-- R121: the string packet, for strings of every length and every byte. Its framing is the spec's decision D15 (log 14);
that the command leaves `pbuf` empty is R123 (a) and (d), by log 17. -/
def Obligations.StringPacketBytes : Prop :=
  ∀ (t : Byte) (str : List Byte) (s : State), exec (.frmString t str) s =
    .next { s with pbuf := [],
                   out := s.out ++ link ([0x7B#8, t, 0x2C#8] ++ str.flatMap (fun ch => hexText ch.toNat) ++
                     [0x7D#8, 0x0D#8, 0x0A#8]) }

/-- R124 and R74: the aggregated packet, its 41 bytes in order. The widths of the sub-fields are the spec's decision D14
(log 14). -/
def Obligations.AggregatedPacketBytes : Prop :=
  ∀ (a : AggOperands) (s : State), 12 ≤ s.cfg.payloadCap → ∃ bytes : List Byte,
    exec (.frmAgg a) s = .next { s with pbuf := [], out := s.out ++ link bytes } ∧ bytes.length = 41 ∧
    bytes = [0x7B#8] ++
      ([s.cfg.tagButton, 0x3A#8] ++ hexText (1 - a.btn.toNat) ++ [0x2C#8]) ++
      ([0x4C#8, 0x3A#8] ++ hexText (4 * a.conn.toNat + 2 * a.eled.toNat + (1 - a.dled.toNat)) ++ [0x2C#8]) ++
      ([s.cfg.tagGpio, 0x3A#8] ++ hexText (2 * a.gpio2.toNat + a.gpio1.toNat) ++ [0x2C#8]) ++
      ([s.cfg.tagTemp, 0x3A#8] ++ wordText a.temp.toNat ++ [0x2C#8]) ++
      ([s.cfg.tagAccel, 0x3A#8] ++ wordText (a.ax.toNat % 0x1000) ++ wordText (a.ay.toNat % 0x1000) ++
        wordText (a.az.toNat % 0x1000) ++ [0x2C#8]) ++
      [0x7D#8, 0x0D#8, 0x0A#8]

/-- R123: a framer command reads no register of the parser or the line session and writes none; it emits on the link
only, the same bytes from every state of the same parameters, and leaves `pbuf` empty. -/
def Obligations.FramerReadsAndWritesNoRegister : Prop :=
  ∀ (i : Instr) (s t : State), (∃ tag items, i = .frmSingle tag items) ∨ (∃ tag str, i = .frmString tag str) ∨
      (∃ a, i = .frmAgg a) →
    exec i s = .next t → ∃ bytes, ∀ u : State, u.cfg = s.cfg →
      exec i u = .next { u with pbuf := [], out := u.out ++ link bytes }

/-- R122: the framer commands the model refuses, each with none of its effect. The layout of a request is the model's
choice (log 6). -/
def Obligations.FramerBoundaryRefusals : Prop :=
  ∀ (s : State) (rest : List InEvent), s.cfg.ok = true →
    (∀ ops, s.inq = .frmCmd (3#8 :: ops) :: rest → step s = .refused (.badRequest .unusedFramerSelector)) ∧
    (∀ sel ops, 4 ≤ sel.toNat → s.inq = .frmCmd (sel :: ops) :: rest → step s = .refused (.badRequest .selectorTooWide)) ∧
    (∀ flags ops : List Byte, flags.length = 6 → ops.length = 8 → (∃ f ∈ flags, 2 ≤ f.toNat) →
      s.inq = .frmCmd (2#8 :: (flags ++ ops)) :: rest → step s = .refused (.badRequest .operandTooWide)) ∧
    (∀ t items, s.cfg.payloadCap < (items.flatMap itemText).length →
      s.inq = .frmCmd (encode s.cfg (.frmSingle t items)).2 :: rest → step s = .refused .payloadOverflow)

/-! ### Parser -/

/-- R141 to R144: the four header transitions, with their whole frames, at every `pstate` (log 11); `Idle` looks for the
one byte 0x7B. The state code 0 of `Idle` is the spec's decision D5 (R21, R91), the two bytes of the selector are log 6. -/
def Obligations.HeaderTransitions : Prop :=
  ∀ (b : Byte) (s : State),
    exec .parStart s = .next { s with pstate := .sequenceNumber } ∧
    exec (.parSkip b) s = .next { s with pstate := .idle } ∧
    exec (.parSeq b) s = .next { s with pstate := .packetId } ∧
    exec (.parTag b) s = .next { s with tag := b, pstate := .payloadSizeHigh } ∧
    (∀ c : Config, decode c .par [0#8, b] = .ok (if b.toNat = 0x7B then .parStart else .parSkip b))

/-- R145 and R146: the two length characters assemble the declared length, with no test of it. On a byte that is no hex
digit its value is the spec's decision D4 (log 14). -/
def Obligations.LengthCharactersAssembleTheLength : Prop :=
  ∀ (b : Byte) (s : State),
    exec (.parLenHi b) s = .next { s with length := BitVec.ofNat 8 (digitValue b), pstate := .payloadSizeLow } ∧
    exec (.parLenLo b) s =
      .next { s with length := BitVec.ofNat 8 (16 * s.length.toNat + digitValue b), pstate := .payloadNibbleEven } ∧
    (s.length.toNat < 16 → 16 * s.length.toNat + digitValue b < 256)

/-- R147: the first character of a pair. The wrap of a zero length is the spec's decision D3 (log 14). -/
def Obligations.EvenNibbleIsHeldAndCounted : Prop :=
  ∀ (b : Byte) (s : State), exec (.parEven b) s =
    .next { s with data := BitVec.ofNat 8 (digitValue b),
                   length := BitVec.ofNat 8 (s.length.toNat + 255),
                   pstate := if s.length.toNat = 1 then .idle else .payloadNibbleOdd }

/-- R148: the second character of a pair completes the byte, dispatches it, and the dispatcher acts at once. -/
def Obligations.OddNibbleDispatchesThePair : Prop :=
  ∀ (b : Byte) (s : State), ∃ d : Byte, d.toNat = (16 * s.data.toNat + digitValue b) % 256 ∧
    (s.data.toNat < 16 → d.toNat = 16 * s.data.toNat + digitValue b) ∧
    exec (.parOdd b) s =
      .next { s with data := d,
                     out := s.out ++ .dispatch s.tag d :: dispatcherOutput s.cfg s.tag d,
                     length := BitVec.ofNat 8 (s.length.toNat + 255),
                     pstate := if s.length.toNat = 1 then .idle else .payloadNibbleEven }

/-- R157 and R140: a step on a link byte moves the parser's registers as the whole-parser function does and puts its
dispatch, with the dispatcher's action, in the trace; nothing else changes. -/
def Obligations.LinkStepRefinesTheParserFunction : Prop :=
  ∀ (s : State) (b : Byte) (rest : List InEvent), s.cfg.ok = true → s.inq = .linkRx b :: rest →
    ∃ t, step s = .next t ∧ parserRegs t = (parser (parserRegs s) b).1 ∧
      t.out = s.out ++ (match (parser (parserRegs s) b).2 with | some td => dispatchOutput s.cfg td | none => []) ∧
      t = { s with pstate := t.pstate, tag := t.tag, length := t.length, data := t.data, out := t.out, inq := rest }

/-- R150: outside `Idle` a frame start is ordinary data: no state restarts the frame on it. That its digit value is 4
rests on the spec's decision D4 (log 14). -/
def Obligations.NoResynchronizationInsideAPacket : Prop :=
  ∀ (s : State) (rest : List InEvent), s.cfg.ok = true → s.pstate ≠ .idle → s.inq = .linkRx 0x7B#8 :: rest →
    ∃ t, step s = .next t ∧ t.pstate ≠ .sequenceNumber ∧
      (s.pstate = .sequenceNumber → t = { s with pstate := .packetId, inq := rest }) ∧
      (s.pstate = .packetId → t = { s with tag := 0x7B#8, pstate := .payloadSizeHigh, inq := rest }) ∧
      (s.pstate = .payloadSizeHigh → t = { s with length := 4#8, pstate := .payloadSizeLow, inq := rest }) ∧
      (s.pstate = .payloadSizeLow →
        t = { s with length := BitVec.ofNat 8 (16 * s.length.toNat + 4), pstate := .payloadNibbleEven, inq := rest }) ∧
      (s.pstate = .payloadNibbleEven → t.data = 4#8 ∧ t.out = s.out) ∧
      (s.pstate = .payloadNibbleOdd → t.data = BitVec.ofNat 8 (16 * s.data.toNat + 4) ∧
        .dispatch s.tag t.data ∈ t.out)

/-- R155: `PayloadNibbleEven` with nothing left to count is entered only from the second length character, so only by a
packet that declares 00. -/
def Obligations.EvenStateWithZeroLengthOnlyFromTheHeader : Prop :=
  ∀ (s t : State) (e : InEvent) (rest : List InEvent), s.inq = e :: rest → step s = .next t →
    t.pstate = .payloadNibbleEven → t.length = 0#8 →
      (s.pstate = .payloadSizeLow ∧ ∃ b, e = .linkRx b) ∨
      (s.pstate = .payloadNibbleEven ∧ s.length = 0#8 ∧ ∀ b, e ≠ .linkRx b)

/-- R152: from `Idle`, a packet whose length characters declare `N` payload characters takes `5 + N` bytes, dispatches
`floor(N / 2)` pairs in order under its tag, each with its action, is in `Idle` after its last byte and at no byte
before. `N` is 256 for a declared 00 (the spec's decision D3). -/
def Obligations.PacketIsCountedOut : Prop :=
  ∀ (s : State) (seq t l1 l0 : Byte) (payload : List Byte) (rest : List InEvent),
    s.cfg.ok = true → s.pstate = .idle → payload.length = payloadCount l1 l0 →
    s.inq = (0x7B#8 :: seq :: t :: l1 :: l0 :: payload).map InEvent.linkRx ++ rest →
    (∃ u, run (5 + payload.length) s = .next u ∧ u.pstate = .idle ∧ u.inq = rest ∧
      (pairs payload).length = payload.length / 2 ∧
      u.out = s.out ++ (pairs payload).flatMap (fun v => dispatchOutput s.cfg (t.toNat, v)) ∧
      u = { s with tag := u.tag, length := u.length, data := u.data, out := u.out, inq := rest }) ∧
    (∀ k, 1 ≤ k → k < 5 + payload.length → ∃ u, run k s = .next u ∧ u.pstate ≠ .idle)

/-- R232: after any 260 consecutive bytes none of which is `{` the parser is in `Idle`, from every state. -/
def Obligations.FlushReachesIdle : Prop :=
  ∀ (s : State) (bytes : List Byte) (rest : List InEvent), s.cfg.ok = true → bytes.length = 260 →
    (∀ b ∈ bytes, b ≠ 0x7B#8) → s.inq = bytes.map InEvent.linkRx ++ rest →
    ∃ t, run 260 s = .next t ∧ t.pstate = .idle ∧ t.inq = rest

/-- R84: the named packets, from `Idle`, whatever the sequence byte: the four LED packets do their one action, a serial
packet of 1 to 127 bytes echoes each of them. -/
def Obligations.NamedPacketsDoWhatTheyName : Prop :=
  ∀ (s : State) (seq : Byte) (rest : List InEvent), s.cfg.ok = true → s.pstate = .idle →
    (∀ v target value, (v, target, value) ∈ [(0x00, ActTarget.dataLed, 0#1), (0x01, ActTarget.dataLed, 1#1),
          (0x10, ActTarget.errLed, 0#1), (0x11, ActTarget.errLed, 1#1)] →
      s.inq = ([0x7B#8, seq] ++ ascii ['L', '0', '2'] ++ hexText v).map InEvent.linkRx ++ rest →
      ∃ u, run 7 s = .next u ∧ u.pstate = .idle ∧ u.inq = rest ∧
        u.out = s.out ++ [.dispatch 0x4C#8 (BitVec.ofNat 8 v), .act target value]) ∧
    (∀ bytes : List Byte, 1 ≤ bytes.length → bytes.length ≤ 127 →
      s.inq = ([0x7B#8, seq, s.cfg.tagSerial] ++ hexText (2 * bytes.length) ++
        bytes.flatMap (fun b => hexText b.toNat)).map InEvent.linkRx ++ rest →
      ∃ u, run (5 + 2 * bytes.length) s = .next u ∧ u.pstate = .idle ∧ u.inq = rest ∧
        u.out = s.out ++ bytes.flatMap fun b => [.dispatch s.cfg.tagSerial b, .linkTx b])

/-! ### Dispatcher -/

/-- R171 and R172: the data LED's two commands, and that every data byte with bit 4 = 0 selects one of them by bit 0. -/
def Obligations.DataLedCommands : Prop :=
  ∀ (d : Byte) (s : State),
    exec (.dspLedDataOff d) s = .next { s with out := s.out ++ [.act .dataLed 0#1] } ∧
    exec (.dspLedDataOn d) s = .next { s with out := s.out ++ [.act .dataLed 1#1] } ∧
    (d.toNat / 16 % 2 = 0 → decode s.cfg .dsp [0x4C#8, d] =
      .ok (if d.toNat % 2 = 0 then .dspLedDataOff d else .dspLedDataOn d))

/-- R173 and R174: the error LED's two commands. The sense of bit 0 is the spec's decision D12 (log 14). -/
def Obligations.ErrorLedCommands : Prop :=
  ∀ (d : Byte) (s : State),
    exec (.dspLedErrOff d) s = .next { s with out := s.out ++ [.act .errLed 0#1] } ∧
    exec (.dspLedErrOn d) s = .next { s with out := s.out ++ [.act .errLed 1#1] } ∧
    (d.toNat / 16 % 2 = 1 → decode s.cfg .dsp [0x4C#8, d] =
      .ok (if d.toNat % 2 = 0 then .dspLedErrOff d else .dspLedErrOn d))

/-- R175: the serial echo is the raw byte on the link. Its form is the spec's decision D11 (log 14). -/
def Obligations.SerialTagEchoesTheByte : Prop :=
  ∀ (d : Byte) (s : State),
    exec (.dspSerial d) s = .next { s with out := s.out ++ [.linkTx d] } ∧
    (s.cfg.tagSerial ≠ 0x4C#8 → decode s.cfg .dsp [s.cfg.tagSerial, d] = .ok (.dspSerial d))

/-- R176: any other tag does nothing. -/
def Obligations.OtherTagsDoNothing : Prop :=
  ∀ (t d : Byte) (s : State),
    exec (.dspNop t d) s = .next s ∧
    (t ≠ 0x4C#8 → t ≠ s.cfg.tagSerial → decode s.cfg .dsp [t, d] = .ok (.dspNop t d))

/-- R170: the decision order on every tag and data byte, by a step on a pair handed to the dispatcher alone (the model's
own event, log 4); where a model admits equal tags the LED case wins. The error LED's sense and the raw echo are the
spec's decisions D12 and D11 (log 14). -/
def Obligations.DispatcherDecisionOrder : Prop :=
  (∀ (s : State) (t d : Byte) (rest : List InEvent), s.cfg.ok = true → s.inq = .dspCall t d :: rest →
    step s = .next { s with inq := rest, out := s.out ++ dispatcherOutput s.cfg t d }) ∧
  (∀ (s : State) (d : Byte), s.cfg.tagSerial = 0x4C#8 →
    dspRun s.cfg.tagSerial d s = .next { s with out := s.out ++
      [.act (if d.toNat / 16 % 2 = 0 then .dataLed else .errLed) (BitVec.ofNat 1 (d.toNat % 2))] })

/-! ### Line session -/

/-- R186 to R189: the four LED words set their LED and emit nothing else. -/
def Obligations.LedWordsSetTheirLed : Prop :=
  ∀ s : State,
    exec .linDataOff s = .next { s with out := s.out ++ [.act .dataLed 0#1] } ∧
    exec .linDataOn s = .next { s with out := s.out ++ [.act .dataLed 1#1] } ∧
    exec .linErrOff s = .next { s with out := s.out ++ [.act .errLed 0#1] } ∧
    exec .linErrOn s = .next { s with out := s.out ++ [.act .errLed 1#1] }

/-- R185: "Hello" is answered by `h`, `i` on the console. That nothing follows is the spec's decision D10 (log 14). -/
def Obligations.HelloIsAnsweredOnTheConsole : Prop :=
  ∀ s : State, exec .linHello s = .next { s with out := s.out ++ [.conTx 0x68#8, .conTx 0x69#8] }

/-- R190: a text outside the vocabulary has no effect, and every such text is such an operation. Whole-line,
case-sensitive equality is the spec's decision D9 (R184, log 14); a text is taken whole (log 16). -/
def Obligations.UnmatchedLinesHaveNoEffect : Prop :=
  ∀ (text : List Byte) (s : State),
    exec (.linNoMatch text) s = .next s ∧
    (wordOutput text = [] → ∀ c : Config, decode c .linText text = .ok (.linNoMatch text))

/-- R181, R183, R184: CR and LF each end the line: the NUL at the cursor, the text up to the first NUL classified, the
cursor back to 0, every other byte of the buffer kept. Whole-line equality is the spec's decision D9 (log 14). -/
def Obligations.TerminatorsEndTheLine : Prop :=
  ∀ (i : Instr) (s : State), i = .linTermCr ∨ i = .linTermLf → s.cursor < s.cfg.lineCap → s.buf.wf = true →
    ∃ t n, exec i s = .next t ∧ n ≤ s.cursor ∧ t.buf.read n = 0x00#8 ∧ (∀ j, j < n → t.buf.read j ≠ 0x00#8) ∧
      (∀ j, t.buf.read j = if j = s.cursor then 0x00#8 else s.buf.read j) ∧
      t = { s with buf := t.buf, cursor := 0, out := s.out ++ wordOutput ((List.range n).map t.buf.read) }

/-- R182: a character is stored at the cursor, which advances; the character that brings it to `LINE_CAP - 1` ends the
line at once. The order of store, advance and test is the spec's decision D8 (log 14). -/
def Obligations.CharactersAccumulateToCapacity : Prop :=
  ∀ (b : Byte) (s : State), s.cursor + 2 ≤ s.cfg.lineCap → s.buf.wf = true →
    (s.cursor + 2 < s.cfg.lineCap → ∃ t, exec (.linChar b) s = .next t ∧
      (∀ j, t.buf.read j = if j = s.cursor then b else s.buf.read j) ∧
      t = { s with buf := t.buf, cursor := s.cursor + 1 }) ∧
    (s.cursor + 2 = s.cfg.lineCap → ∃ t n, exec (.linChar b) s = .next t ∧
      (∀ j, t.buf.read j = if j = s.cursor then b else if j = s.cursor + 1 then 0x00#8 else s.buf.read j) ∧
      n ≤ s.cursor + 1 ∧ t.buf.read n = 0x00#8 ∧ (∀ j, j < n → t.buf.read j ≠ 0x00#8) ∧
      t = { s with buf := t.buf, cursor := 0, out := s.out ++ wordOutput ((List.range n).map t.buf.read) })

/-- R180: a whole line. From an empty line, a text short enough for the buffer, then CR or LF, leads to exactly the
action of the text (cut at a NUL, the spec's decision D9) and to an empty line again. -/
def Obligations.WholeLineIsClassified : Prop :=
  ∀ (s : State) (text : List Byte) (e : Byte) (rest : List InEvent), s.inv → s.cursor = 0 →
    text.length + 2 ≤ s.cfg.lineCap → (∀ b ∈ text, b ≠ 0x0D#8 ∧ b ≠ 0x0A#8) → e = 0x0D#8 ∨ e = 0x0A#8 →
    s.inq = (text ++ [e]).map InEvent.conRx ++ rest →
    ∃ t, run (text.length + 1) s = .next t ∧
      t = { s with buf := t.buf, cursor := 0, inq := rest, out := s.out ++ wordOutput (text.takeWhile (· != 0x00#8)) }

/-- R182, R237: `LINE_CAP - 1` characters with no terminator are a line of their own, classified at the last of them (the
spec's decision D8). -/
def Obligations.FullLineIsCutAtCapacity : Prop :=
  ∀ (s : State) (text : List Byte) (rest : List InEvent), s.inv → s.cursor = 0 →
    text.length + 1 = s.cfg.lineCap → (∀ b ∈ text, b ≠ 0x0D#8 ∧ b ≠ 0x0A#8) →
    s.inq = text.map InEvent.conRx ++ rest →
    ∃ t, run text.length s = .next t ∧
      t = { s with buf := t.buf, cursor := 0, inq := rest, out := s.out ++ wordOutput (text.takeWhile (· != 0x00#8)) }

/-! ### Reset -/

/-- R220, R221: `Reset` in any state leads to `Idle`, an empty line and an empty payload buffer and emits nothing. What it
leaves in `tag`, `length`, `data` and `buf` is the model's choice (log 7, log 8) and no clause here says it. -/
def Obligations.ResetReachesIdleAndEmitsNothing : Prop :=
  ∀ s : State, ∃ t, exec .reset s = .next t ∧ t.pstate = .idle ∧ t.cursor = 0 ∧ t.pbuf = [] ∧ t.out = s.out ∧
    t.cfg = s.cfg ∧ t.inq = s.inq ∧ t.ret = s.ret

/-- The state after reset meets the invariant, at every admitted choice of the parameters, and no event waits in it.
`Idle` and the empty line are the spec's decision D6 (R220); the registers and bytes R220 leaves unspecified are log 7 and
log 8, the queue is the model's (log 2). -/
def Obligations.ResetStateMeetsTheInvariant : Prop :=
  (∀ c : Config, c.ok = true → (State.resetWith c).inv ∧ (State.resetWith c).pstate = .idle ∧
    (State.resetWith c).cursor = 0 ∧ (State.resetWith c).pbuf = [] ∧ (State.resetWith c).inq = []) ∧
  State.reset.inv ∧ State.reset.inq = []

/-! ### The whole machine -/

/-- R27, R155, R29: every step keeps the invariant, from every state that meets it. -/
def Obligations.StepKeepsTheInvariant : Prop :=
  ∀ s t : State, s.inv → step s = .next t → t.inv

/-- R10, R200: under the invariant no step faults; `Reset`, a link byte and a console byte have a step in every state;
the only refusals are of requests: of framer commands (R10, R122), and of function calls, which are the model's own event
and whose refusals are the model's choice (log 4, log 13). -/
def Obligations.StepNeverFaults : Prop :=
  ∀ s : State, s.inv →
    (∀ r, step s ≠ .fault r) ∧
    (∀ e rest, s.inq = e :: rest → (e = .reset ∨ (∃ b, e = .linkRx b) ∨ (∃ b, e = .conRx b)) → ∃ t, step s = .next t) ∧
    (∀ r, step s = .refused r → ∃ request rest, s.inq = .frmCmd request :: rest ∨ s.inq = .funcCall request :: rest)

/-- R61: what each event can put in the trace: a link byte one dispatch and then at most one action or echo, a console
byte "hi" or one action, `Reset` nothing, a framer command link bytes only. The trace only grows. "hi" with nothing after
it, the raw echo and the framer's bytes on the link only are the spec's decisions D10, D11 and D21 (log 14). -/
def Obligations.OutputsOfEachEvent : Prop :=
  ∀ (s t : State) (e : InEvent) (rest : List InEvent), s.inq = e :: rest → step s = .next t →
    ∃ es, t.out = s.out ++ es ∧
      (e = .reset → es = []) ∧
      (∀ b, e = .linkRx b → es = [] ∨ ∃ d more, es = .dispatch s.tag d :: more ∧
        (more = [] ∨ (∃ x, more = [.linkTx x]) ∨ ∃ target v, more = [.act target v])) ∧
      (∀ b, e = .conRx b → es = [] ∨ es = [.conTx 0x68#8, .conTx 0x69#8] ∨ ∃ target v, es = [.act target v]) ∧
      (∀ request, e = .frmCmd request → ∃ bytes, es = link bytes)

/-- R192, R123, R33, R220, R221: the frames of the four port events. A console byte touches only the line session, and of the buffer
only the bytes at the cursor and just after it; a link byte touches only the parser, a framer command only the payload
buffer (left empty); no event changes the parameters. `Reset` emits nothing (R220, R221, the spec's decision D6); that it
leaves the parameters, the events still waiting and `ret` is the model's reading (log 21), and the queue and `ret` are the
model's own (log 2, log 5). -/
def Obligations.FramesOfEachEvent : Prop :=
  ∀ (s t : State) (e : InEvent) (rest : List InEvent), s.inq = e :: rest → step s = .next t →
    t.cfg = s.cfg ∧ t.inq = rest ∧
    (∀ b, e = .conRx b → t = { s with buf := t.buf, cursor := t.cursor, out := t.out, inq := rest } ∧
      ∀ j, j ≠ s.cursor → j ≠ s.cursor + 1 → t.buf.read j = s.buf.read j) ∧
    (∀ b, e = .linkRx b → t = { s with pstate := t.pstate, tag := t.tag, length := t.length, data := t.data, out := t.out,
                                       inq := rest }) ∧
    (∀ request, e = .frmCmd request → t = { s with pbuf := [], out := t.out, inq := rest }) ∧
    (e = .reset → t.ret = s.ret ∧ t.out = s.out)

/-- R61: a link byte and a console byte commute: the same final state, and the same two output lists in the two orders;
the console's list holds nothing of the link's ports and the link's nothing of the console's. (Both lists can hold an
`act`, so the order on the actuator port follows the order of the events; log 18.) -/
def Obligations.LinkAndConsoleBytesCommute : Prop :=
  ∀ (s : State) (a b : Byte) (rest : List InEvent), s.inv → ∃ (t : State) (esLink esCon : List OutEvent),
    run 2 { s with inq := .linkRx a :: .conRx b :: rest } = .next { t with out := s.out ++ esLink ++ esCon } ∧
    run 2 { s with inq := .conRx b :: .linkRx a :: rest } = .next { t with out := s.out ++ esCon ++ esLink } ∧
    (∀ x ∈ esLink, ∀ v, x ≠ .conTx v) ∧
    (∀ x ∈ esCon, (∀ v, x ≠ .linkTx v) ∧ ∀ u v, x ≠ .dispatch u v)

/-- R25, R28: the registers and bytes whose reset values the spec leaves unspecified reach no output: two states that
agree on what is live take the same step and agree again. -/
def Obligations.UnspecifiedStateIsUnobservable : Prop :=
  ∀ s t : State, s.inv → t.inv → SameLive s t →
    (∀ s', step s = .next s' → ∃ t', step t = .next t' ∧ SameLive s' t') ∧
    (∀ r, step s = .refused r → step t = .refused r)

/-- R31, R63, R177: in the closed loop, the level the framer is given after an LED command is the open function of the
last value commanded to that LED, and the other LED's level is not touched. -/
def Obligations.ClosedLoopReadsTheLastCommand : Prop :=
  ∀ (i : Instr) (target : ActTarget) (v : Bit) (s t : State) (raw : Bit → Bit) (atStart : Bit),
    ((∃ d, i = .dspLedDataOff d ∨ i = .linDataOff) ∧ target = .dataLed ∧ v = 0#1) ∨
    ((∃ d, i = .dspLedDataOn d ∨ i = .linDataOn) ∧ target = .dataLed ∧ v = 1#1) ∨
    ((∃ d, i = .dspLedErrOff d ∨ i = .linErrOff) ∧ target = .errLed ∧ v = 0#1) ∨
    ((∃ d, i = .dspLedErrOn d ∨ i = .linErrOn) ∧ target = .errLed ∧ v = 1#1) →
    exec i s = .next t →
      sampledLevel raw atStart target t = raw v ∧
      ∀ other, other ≠ target → sampledLevel raw atStart other t = sampledLevel raw atStart other s

/-! ### Selection -/

/-- R90, R91: decoding the selector of a well-formed operation gives the operation, with every operand at every value. -/
def Obligations.DecodeOfEncodeIsTheOperation : Prop :=
  ∀ (c : Config) (i : Instr), WellFormed c i = true → decode c (encode c i).1 (encode c i).2 = .ok i

/-- The decoder gives well-formed operations only, and each has one selector: encoding gives it back, but for `HEX.ENC`,
whose operand byte may be wider than the nibble it gives (log 15). -/
def Obligations.DecodedOperationsAreWellFormed : Prop :=
  ∀ (c : Config) (f : Format) (bytes : List Byte) (i : Instr), c.ok = true → decode c f bytes = .ok i →
    WellFormed c i = true ∧ ((∀ n, i ≠ .hexEnc n) → encode c i = (f, bytes))

/-- R90, R91: in every format that has a selector word, the operation decoded is the one the first matching row of the
operation map names, by `(w & mask) = match`. -/
def Obligations.DecoderAgreesWithTheOperationMap : Prop :=
  ∀ (c : Config) (f : Format) (bytes : List Byte) (i : Instr), c.ok = true → f ≠ .func → f ≠ .event →
    decode c f bytes = .ok i → tableMnemonic c f bytes = some i.mnemonic

/-- R91: a few selector words written out from the operation map. -/
def Obligations.SelectorWordsDecode : Prop :=
  ∀ c : Config,
    decode c .par [0x00#8, 0x7B#8] = .ok .parStart ∧ decode c .par [0x02#8, 0x4C#8] = .ok (.parTag 0x4C#8) ∧
    decode c .par [0x06#8, 0x31#8] = .ok (.parOdd 0x31#8) ∧ decode c .par [0x07#8, 0x00#8] = .error .unusedStateCode ∧
    decode c .dsp [0x4C#8, 0xEF#8] = .ok (.dspLedDataOn 0xEF#8) ∧ decode c .dsp [0x4C#8, 0x1E#8] = .ok (.dspLedErrOff 0x1E#8) ∧
    decode c .linByte [0x0D#8] = .ok .linTermCr ∧
    decode c .linText [0x6C#8, 0x65#8, 0x64#8, 0x20#8, 0x65#8, 0x72#8, 0x72#8, 0x20#8, 0x6F#8, 0x6E#8] = .ok .linErrOn ∧
    decode c .frm [0x03#8] = .error .unusedFramerSelector ∧ decode c .event [] = .ok .reset

/-- R9: a step runs the decoded operation: the oldest event's selector, decoded in the present state, run in the state
without that event; an event that names no operation is refused; with no event the state stays (log 2); parameters that
break R7 are refused (R10). -/
def Obligations.StepRunsTheDecodedOperation : Prop :=
  ∀ s : State,
    (∀ e rest i, s.cfg.ok = true → s.inq = e :: rest → decode s.cfg (selectorOf s e).1 (selectorOf s e).2 = .ok i →
      step s = exec i { s with inq := rest }) ∧
    (∀ e rest r, s.cfg.ok = true → s.inq = e :: rest → decode s.cfg (selectorOf s e).1 (selectorOf s e).2 = .error r →
      step s = .refused (.badRequest r)) ∧
    (s.cfg.ok = true → s.inq = [] → step s = .next s) ∧
    (s.cfg.ok = false → step s = .refused .badParameters)

/-- A table word presented to the machine after reset is the operation the next step runs, at the parser state the word
names (log 12). -/
def Obligations.PresentedTableWordIsRun : Prop :=
  ∀ (nbits w : Nat) (i : Instr), decodeTableWord nbits w = some i →
    ∃ p : PState, wordPState nbits w = some p ∧
      step (State.reset.withFetchWord nbits w) = exec i { State.reset with pstate := p }
end

