-- ==== Sys2Proof/Laws/Encoding.lean ====
section
/-! SUPPORT. The pieces of the encoding: each decoder of a piece gives back what its encoder wrote. -/

namespace Sys2Proof

@[simp] theorem wordOf_loByte_hiByte (v : Word16) : Machine.wordOf (Machine.loByte v) (Machine.hiByte v) = v := by
  simp only [Machine.wordOf, Machine.loByte, Machine.hiByte]
  ext i hi
  simp only [BitVec.getElem_append, BitVec.getElem_extractLsb']
  split
  · simp [BitVec.getLsbD_eq_getElem hi]
  · rw [show 8 + (i - 8) = i by omega, BitVec.getLsbD_eq_getElem hi]

@[simp] theorem loNibble_setWidth (n : Nibble) : Machine.loNibble (n.setWidth 8) = n := by
  revert n; decide

@[simp] theorem decodeBit_encodeBit (b : Bit) : decodeBit (encodeBit b) = .ok b := by
  revert b; decide

@[simp] theorem PState.ofCode_code (p : PState) : PState.ofCode p.code = some p := by
  cases p <;> rfl

/-- Payload items come back from their bytes, at any number of items. -/
theorem decodeItems_encodeItem (items : List Item) : decodeItems (items.flatMap encodeItem) = .ok items := by
  induction items with
  | nil => rfl
  | cons item rest ih =>
    cases item with
    | byte v =>
      cases h : rest.flatMap encodeItem with
      | nil =>
        rw [h] at ih
        cases ih
        simp [encodeItem, decodeItems, h]
      | cons x xs =>
        rw [h] at ih
        simp [encodeItem, decodeItems, h, ih]
    | word v => simp [encodeItem, encodeWord, decodeItems, ih]

/-- A transition of a state other than `Idle` does not look at its byte. -/
theorem decodePar_code (p : PState) (b : Byte) : decodePar [p.code, b] = .ok (decodeTransition p b) := by
  simp [decodePar]

/-- The row that selects a line text is the row of its own word. -/
theorem decodeText_of_not_mem (text : List Byte) (h : text ∉ vocabulary) : decodeText text = .linNoMatch text := by
  simp only [vocabulary, List.mem_cons, List.not_mem_nil, or_false, not_or] at h
  simp [decodeText, h]

end Sys2Proof
end

