-- ==== Sys2Proof/Laws/Memory.lean ====
section
/-! SUPPORT. The laws of bytes by index: a read after a write, and the canonical form under every operation. -/

namespace Sys2Proof.Machine

@[simp] theorem Memory.read_nil (i : Nat) : Memory.read [] i = Memory.unlisted := rfl

theorem Memory.read_insert (m : Memory) (i j : Nat) (v : Byte) (h : m.wf = true) :
    (Memory.insert m i v).read j = if j = i then v else m.read j := by
  induction m with
  | nil => by_cases hj : i = j <;> simp [Memory.insert, Memory.read, hj, eq_comm]
  | cons c rest ih =>
    obtain ⟨a, w⟩ := c
    have hrest : Memory.wf rest = true := by
      cases rest with
      | nil => rfl
      | cons d r => simp only [Memory.wf, Bool.and_eq_true] at h; exact h.2
    simp only [Memory.insert]
    split
    · by_cases hj : i = j <;> simp [Memory.read, hj, eq_comm]
    · split
      · rename_i h1 h2; subst h2
        by_cases hj : i = j <;> simp [Memory.read, hj, eq_comm]
      · rename_i h1 h2
        simp only [Memory.read, ih hrest]
        split
        · rename_i h3; subst h3; simp [Ne.symm h2]
        · rfl

/-- Below the first listed index, and between listed ones, an index reads as unlisted. -/
theorem Memory.read_of_lt (m : Memory) (a : Nat) (w : Byte) (i : Nat) (h : Memory.wf ((a, w) :: m) = true)
    (hi : i ≤ a) : Memory.read m i = Memory.unlisted := by
  induction m generalizing a w with
  | nil => rfl
  | cons c rest ih =>
    obtain ⟨b, v⟩ := c
    simp only [Memory.wf, Bool.and_eq_true, decide_eq_true_eq] at h
    have hb : b ≠ i := by omega
    simp only [Memory.read, hb, if_false]
    exact ih b v h.2 (by omega)

theorem Memory.wf_tail (c : Host.Cell) (m : Memory) (h : Memory.wf (c :: m) = true) : Memory.wf m = true := by
  cases m with
  | nil => rfl
  | cons d r => obtain ⟨a, v⟩ := c; obtain ⟨b, w⟩ := d; simp only [Memory.wf, Bool.and_eq_true] at h; exact h.2

theorem Memory.read_erase (m : Memory) (i j : Nat) (h : m.wf = true) :
    (Memory.erase m i).read j = if j = i then Memory.unlisted else m.read j := by
  induction m with
  | nil => simp [Memory.erase]
  | cons c rest ih =>
    obtain ⟨a, w⟩ := c
    simp only [Memory.erase]
    split
    · rename_i h1; subst h1
      split
      · rename_i h2; subst h2; exact Memory.read_of_lt rest j w j h (le_refl _)
      · rename_i h2; simp [Memory.read, Ne.symm h2]
    · rename_i h1
      simp only [Memory.read, ih (Memory.wf_tail _ _ h)]
      split
      · rename_i h2; subst h2; simp [h1]
      · rfl

/-- A read after a write: the byte written there, every other byte as before. -/
theorem Memory.read_write (m : Memory) (i j : Nat) (v : Byte) (h : m.wf = true) :
    (m.write i v).read j = if j = i then v else m.read j := by
  simp only [Memory.write]
  split
  · rename_i hv; rw [Memory.read_erase m i j h, hv]
  · exact Memory.read_insert m i j v h

theorem Memory.read_insert_of_ne (m : Memory) {i j : Nat} (v : Byte) (h : j ≠ i) :
    (Memory.insert m i v).read j = m.read j := by
  induction m with
  | nil => simp [Memory.insert, Memory.read, h.symm]
  | cons c rest ih =>
    simp only [Memory.insert]
    split_ifs with h1 h2
    · simp [Memory.read, h.symm]
    · subst h2; simp [Memory.read, h.symm]
    · simp [Memory.read, ih]

theorem Memory.read_erase_of_ne (m : Memory) {i j : Nat} (h : j ≠ i) : (Memory.erase m i).read j = m.read j := by
  induction m with
  | nil => rfl
  | cons c rest ih =>
    simp only [Memory.erase]
    split_ifs with h1
    · subst h1; simp [Memory.read, h.symm]
    · simp [Memory.read, ih]

/-- A write leaves every other byte, in any list of cells, canonical or not. -/
theorem Memory.read_write_of_ne (m : Memory) {i j : Nat} (v : Byte) (h : j ≠ i) : (m.write i v).read j = m.read j := by
  simp only [Memory.write]
  split_ifs
  · exact Memory.read_erase_of_ne m h
  · exact Memory.read_insert_of_ne m v h

/-- The head of a list whose tail is in canonical form and starts above it. -/
theorem Memory.wf_cons (a : Nat) (v : Byte) (m : Memory) (hv : v ≠ Memory.unlisted) (hm : m.wf = true)
    (hlt : ∀ b w r, m = (b, w) :: r → a < b) : Memory.wf ((a, v) :: m) = true := by
  cases m with
  | nil => simp [Memory.wf, hv]
  | cons d r =>
    obtain ⟨b, w⟩ := d
    simp [Memory.wf, hv, hlt b w r rfl]
    exact hm

theorem Memory.wf_head (a : Nat) (v : Byte) (m : Memory) (h : Memory.wf ((a, v) :: m) = true) :
    v ≠ Memory.unlisted ∧ ∀ b w r, m = (b, w) :: r → a < b := by
  cases m with
  | nil => simpa [Memory.wf] using h
  | cons d r =>
    obtain ⟨b, w⟩ := d
    simp only [Memory.wf, Bool.and_eq_true, decide_eq_true_eq] at h
    refine ⟨h.1.1, ?_⟩
    rintro b' w' r' h'
    cases h'; exact h.1.2

theorem Memory.insert_wf (m : Memory) (i : Nat) (v : Byte) (hv : v ≠ Memory.unlisted) (h : m.wf = true) :
    (Memory.insert m i v).wf = true ∧
    (∀ b w r, Memory.insert m i v = (b, w) :: r → b = i ∨ ∃ w' r', m = (b, w') :: r') := by
  induction m with
  | nil => simp [Memory.insert, Memory.wf, hv]; intros; omega
  | cons c rest ih =>
    obtain ⟨a, w⟩ := c
    have hh := Memory.wf_head a w rest h
    have ht := Memory.wf_tail _ _ h
    simp only [Memory.insert]
    split
    · rename_i h1
      exact ⟨Memory.wf_cons i v _ hv h (by rintro b w' r' h'; cases h'; exact h1),
        by rintro b w' r' h'; cases h'; left; rfl⟩
    · split
      · rename_i h1 h2; subst h2
        exact ⟨Memory.wf_cons i v _ hv ht hh.2, by rintro b w' r' h'; cases h'; left; rfl⟩
      · rename_i h1 h2
        refine ⟨Memory.wf_cons a w _ hh.1 (ih ht).1 ?_, by rintro b w' r' h'; cases h'; right; exact ⟨_, _, rfl⟩⟩
        intro b w' r' h'
        rcases (ih ht).2 b w' r' h' with h3 | ⟨w'', r'', h3⟩
        · omega
        · exact hh.2 b w'' r'' h3

theorem Memory.erase_wf (m : Memory) (i : Nat) (h : m.wf = true) :
    (Memory.erase m i).wf = true ∧ (∀ c, c ∈ Memory.erase m i → c ∈ m) ∧
    (∀ a b w r, (∀ b' w' r', m = (b', w') :: r' → a < b') → Memory.erase m i = (b, w) :: r → a < b) := by
  induction m with
  | nil => simp [Memory.erase, Memory.wf]
  | cons c rest ih =>
    obtain ⟨a, w⟩ := c
    have hh := Memory.wf_head a w rest h
    have ht := Memory.wf_tail _ _ h
    simp only [Memory.erase]
    split
    · refine ⟨ht, fun c hc => List.mem_cons_of_mem _ hc, ?_⟩
      intro a' b w' r' h1 h2
      have := h1 a w rest rfl
      have := hh.2 b w' r' h2
      omega
    · refine ⟨Memory.wf_cons a w _ hh.1 (ih ht).1 ?_, ?_, ?_⟩
      · intro b w' r' h'; exact (ih ht).2.2 a b w' r' hh.2 h'
      · intro c hc
        rcases List.mem_cons.mp hc with h1 | h1
        · exact h1 ▸ List.mem_cons_self
        · exact List.mem_cons_of_mem _ ((ih ht).2.1 c h1)
      · intro a' b w' r' h1 h2; cases h2; exact h1 a w rest rfl

/-- Every write keeps the canonical form. -/
theorem Memory.write_wf (m : Memory) (i : Nat) (v : Byte) (h : m.wf = true) : (m.write i v).wf = true := by
  simp only [Memory.write]
  split
  · exact (Memory.erase_wf m i h).1
  · rename_i hv; exact (Memory.insert_wf m i v hv h).1

theorem Memory.mem_insert (m : Memory) (i : Nat) (v : Byte) (c : Host.Cell) (hc : c ∈ Memory.insert m i v) :
    c = (i, v) ∨ c ∈ m := by
  induction m with
  | nil => simp [Memory.insert] at hc; exact Or.inl hc
  | cons d rest ih =>
    obtain ⟨a, w⟩ := d
    simp only [Memory.insert] at hc
    split at hc
    · simpa using hc
    · split at hc
      · rcases List.mem_cons.mp hc with h | h
        · exact Or.inl h
        · exact Or.inr (List.mem_cons_of_mem _ h)
      · rcases List.mem_cons.mp hc with h | h
        · exact Or.inr (h ▸ List.mem_cons_self)
        · rcases ih h with h1 | h1
          · exact Or.inl h1
          · exact Or.inr (List.mem_cons_of_mem _ h1)

/-- A write inside a bound keeps every listed index inside it. -/
theorem Memory.write_bounded (m : Memory) (i n : Nat) (v : Byte) (hm : m.wf = true) (hi : i < n)
    (h : (m.all fun c => decide (c.1 < n)) = true) : ((m.write i v).all fun c => decide (c.1 < n)) = true := by
  simp only [List.all_eq_true, decide_eq_true_eq] at h ⊢
  intro c hc
  simp only [Memory.write] at hc
  split at hc
  · exact h c ((Memory.erase_wf m i hm).2.1 c hc)
  · rcases Memory.mem_insert m i v c hc with h1 | h1
    · rw [h1]; exact hi
    · exact h c h1

/-- Reset memory is canonical. -/
theorem Memory.wf_reset : State.reset.buf.wf = true := rfl

end Sys2Proof.Machine
end

