-- ==== Sys2Proof/Laws/State.lean ====
section
/-! SUPPORT. One lemma per field per update of State, so that no proof unfolds a record update. -/

namespace Sys2Proof.Machine.State

variable (s : State)

@[simp] theorem setPstate_cfg (p : PState) : (s.setPstate p).cfg = s.cfg := rfl
@[simp] theorem setPstate_pstate (p : PState) : (s.setPstate p).pstate = p := rfl
@[simp] theorem setPstate_tag (p : PState) : (s.setPstate p).tag = s.tag := rfl
@[simp] theorem setPstate_length (p : PState) : (s.setPstate p).length = s.length := rfl
@[simp] theorem setPstate_data (p : PState) : (s.setPstate p).data = s.data := rfl
@[simp] theorem setPstate_buf (p : PState) : (s.setPstate p).buf = s.buf := rfl
@[simp] theorem setPstate_cursor (p : PState) : (s.setPstate p).cursor = s.cursor := rfl
@[simp] theorem setPstate_pbuf (p : PState) : (s.setPstate p).pbuf = s.pbuf := rfl
@[simp] theorem setPstate_inq (p : PState) : (s.setPstate p).inq = s.inq := rfl
@[simp] theorem setPstate_out (p : PState) : (s.setPstate p).out = s.out := rfl
@[simp] theorem setPstate_ret (p : PState) : (s.setPstate p).ret = s.ret := rfl

@[simp] theorem setTag_cfg (v : Byte) : (s.setTag v).cfg = s.cfg := rfl
@[simp] theorem setTag_pstate (v : Byte) : (s.setTag v).pstate = s.pstate := rfl
@[simp] theorem setTag_tag (v : Byte) : (s.setTag v).tag = v := rfl
@[simp] theorem setTag_length (v : Byte) : (s.setTag v).length = s.length := rfl
@[simp] theorem setTag_data (v : Byte) : (s.setTag v).data = s.data := rfl
@[simp] theorem setTag_buf (v : Byte) : (s.setTag v).buf = s.buf := rfl
@[simp] theorem setTag_cursor (v : Byte) : (s.setTag v).cursor = s.cursor := rfl
@[simp] theorem setTag_pbuf (v : Byte) : (s.setTag v).pbuf = s.pbuf := rfl
@[simp] theorem setTag_inq (v : Byte) : (s.setTag v).inq = s.inq := rfl
@[simp] theorem setTag_out (v : Byte) : (s.setTag v).out = s.out := rfl
@[simp] theorem setTag_ret (v : Byte) : (s.setTag v).ret = s.ret := rfl

@[simp] theorem setLength_cfg (v : Byte) : (s.setLength v).cfg = s.cfg := rfl
@[simp] theorem setLength_pstate (v : Byte) : (s.setLength v).pstate = s.pstate := rfl
@[simp] theorem setLength_tag (v : Byte) : (s.setLength v).tag = s.tag := rfl
@[simp] theorem setLength_length (v : Byte) : (s.setLength v).length = v := rfl
@[simp] theorem setLength_data (v : Byte) : (s.setLength v).data = s.data := rfl
@[simp] theorem setLength_buf (v : Byte) : (s.setLength v).buf = s.buf := rfl
@[simp] theorem setLength_cursor (v : Byte) : (s.setLength v).cursor = s.cursor := rfl
@[simp] theorem setLength_pbuf (v : Byte) : (s.setLength v).pbuf = s.pbuf := rfl
@[simp] theorem setLength_inq (v : Byte) : (s.setLength v).inq = s.inq := rfl
@[simp] theorem setLength_out (v : Byte) : (s.setLength v).out = s.out := rfl
@[simp] theorem setLength_ret (v : Byte) : (s.setLength v).ret = s.ret := rfl

@[simp] theorem setData_cfg (v : Byte) : (s.setData v).cfg = s.cfg := rfl
@[simp] theorem setData_pstate (v : Byte) : (s.setData v).pstate = s.pstate := rfl
@[simp] theorem setData_tag (v : Byte) : (s.setData v).tag = s.tag := rfl
@[simp] theorem setData_length (v : Byte) : (s.setData v).length = s.length := rfl
@[simp] theorem setData_data (v : Byte) : (s.setData v).data = v := rfl
@[simp] theorem setData_buf (v : Byte) : (s.setData v).buf = s.buf := rfl
@[simp] theorem setData_cursor (v : Byte) : (s.setData v).cursor = s.cursor := rfl
@[simp] theorem setData_pbuf (v : Byte) : (s.setData v).pbuf = s.pbuf := rfl
@[simp] theorem setData_inq (v : Byte) : (s.setData v).inq = s.inq := rfl
@[simp] theorem setData_out (v : Byte) : (s.setData v).out = s.out := rfl
@[simp] theorem setData_ret (v : Byte) : (s.setData v).ret = s.ret := rfl

@[simp] theorem setBuf_cfg (m : Memory) : (s.setBuf m).cfg = s.cfg := rfl
@[simp] theorem setBuf_pstate (m : Memory) : (s.setBuf m).pstate = s.pstate := rfl
@[simp] theorem setBuf_tag (m : Memory) : (s.setBuf m).tag = s.tag := rfl
@[simp] theorem setBuf_length (m : Memory) : (s.setBuf m).length = s.length := rfl
@[simp] theorem setBuf_data (m : Memory) : (s.setBuf m).data = s.data := rfl
@[simp] theorem setBuf_buf (m : Memory) : (s.setBuf m).buf = m := rfl
@[simp] theorem setBuf_cursor (m : Memory) : (s.setBuf m).cursor = s.cursor := rfl
@[simp] theorem setBuf_pbuf (m : Memory) : (s.setBuf m).pbuf = s.pbuf := rfl
@[simp] theorem setBuf_inq (m : Memory) : (s.setBuf m).inq = s.inq := rfl
@[simp] theorem setBuf_out (m : Memory) : (s.setBuf m).out = s.out := rfl
@[simp] theorem setBuf_ret (m : Memory) : (s.setBuf m).ret = s.ret := rfl

@[simp] theorem setCursor_cfg (n : Nat) : (s.setCursor n).cfg = s.cfg := rfl
@[simp] theorem setCursor_pstate (n : Nat) : (s.setCursor n).pstate = s.pstate := rfl
@[simp] theorem setCursor_tag (n : Nat) : (s.setCursor n).tag = s.tag := rfl
@[simp] theorem setCursor_length (n : Nat) : (s.setCursor n).length = s.length := rfl
@[simp] theorem setCursor_data (n : Nat) : (s.setCursor n).data = s.data := rfl
@[simp] theorem setCursor_buf (n : Nat) : (s.setCursor n).buf = s.buf := rfl
@[simp] theorem setCursor_cursor (n : Nat) : (s.setCursor n).cursor = n := rfl
@[simp] theorem setCursor_pbuf (n : Nat) : (s.setCursor n).pbuf = s.pbuf := rfl
@[simp] theorem setCursor_inq (n : Nat) : (s.setCursor n).inq = s.inq := rfl
@[simp] theorem setCursor_out (n : Nat) : (s.setCursor n).out = s.out := rfl
@[simp] theorem setCursor_ret (n : Nat) : (s.setCursor n).ret = s.ret := rfl

@[simp] theorem setPbuf_cfg (cs : List Byte) : (s.setPbuf cs).cfg = s.cfg := rfl
@[simp] theorem setPbuf_pstate (cs : List Byte) : (s.setPbuf cs).pstate = s.pstate := rfl
@[simp] theorem setPbuf_tag (cs : List Byte) : (s.setPbuf cs).tag = s.tag := rfl
@[simp] theorem setPbuf_length (cs : List Byte) : (s.setPbuf cs).length = s.length := rfl
@[simp] theorem setPbuf_data (cs : List Byte) : (s.setPbuf cs).data = s.data := rfl
@[simp] theorem setPbuf_buf (cs : List Byte) : (s.setPbuf cs).buf = s.buf := rfl
@[simp] theorem setPbuf_cursor (cs : List Byte) : (s.setPbuf cs).cursor = s.cursor := rfl
@[simp] theorem setPbuf_pbuf (cs : List Byte) : (s.setPbuf cs).pbuf = cs := rfl
@[simp] theorem setPbuf_inq (cs : List Byte) : (s.setPbuf cs).inq = s.inq := rfl
@[simp] theorem setPbuf_out (cs : List Byte) : (s.setPbuf cs).out = s.out := rfl
@[simp] theorem setPbuf_ret (cs : List Byte) : (s.setPbuf cs).ret = s.ret := rfl

@[simp] theorem setInq_cfg (es : List InEvent) : (s.setInq es).cfg = s.cfg := rfl
@[simp] theorem setInq_pstate (es : List InEvent) : (s.setInq es).pstate = s.pstate := rfl
@[simp] theorem setInq_tag (es : List InEvent) : (s.setInq es).tag = s.tag := rfl
@[simp] theorem setInq_length (es : List InEvent) : (s.setInq es).length = s.length := rfl
@[simp] theorem setInq_data (es : List InEvent) : (s.setInq es).data = s.data := rfl
@[simp] theorem setInq_buf (es : List InEvent) : (s.setInq es).buf = s.buf := rfl
@[simp] theorem setInq_cursor (es : List InEvent) : (s.setInq es).cursor = s.cursor := rfl
@[simp] theorem setInq_pbuf (es : List InEvent) : (s.setInq es).pbuf = s.pbuf := rfl
@[simp] theorem setInq_inq (es : List InEvent) : (s.setInq es).inq = es := rfl
@[simp] theorem setInq_out (es : List InEvent) : (s.setInq es).out = s.out := rfl
@[simp] theorem setInq_ret (es : List InEvent) : (s.setInq es).ret = s.ret := rfl

@[simp] theorem setRet_cfg (r : Ret) : (s.setRet r).cfg = s.cfg := rfl
@[simp] theorem setRet_pstate (r : Ret) : (s.setRet r).pstate = s.pstate := rfl
@[simp] theorem setRet_tag (r : Ret) : (s.setRet r).tag = s.tag := rfl
@[simp] theorem setRet_length (r : Ret) : (s.setRet r).length = s.length := rfl
@[simp] theorem setRet_data (r : Ret) : (s.setRet r).data = s.data := rfl
@[simp] theorem setRet_buf (r : Ret) : (s.setRet r).buf = s.buf := rfl
@[simp] theorem setRet_cursor (r : Ret) : (s.setRet r).cursor = s.cursor := rfl
@[simp] theorem setRet_pbuf (r : Ret) : (s.setRet r).pbuf = s.pbuf := rfl
@[simp] theorem setRet_inq (r : Ret) : (s.setRet r).inq = s.inq := rfl
@[simp] theorem setRet_out (r : Ret) : (s.setRet r).out = s.out := rfl
@[simp] theorem setRet_ret (r : Ret) : (s.setRet r).ret = r := rfl

@[simp] theorem emitAll_cfg (es : List OutEvent) : (s.emitAll es).cfg = s.cfg := rfl
@[simp] theorem emitAll_pstate (es : List OutEvent) : (s.emitAll es).pstate = s.pstate := rfl
@[simp] theorem emitAll_tag (es : List OutEvent) : (s.emitAll es).tag = s.tag := rfl
@[simp] theorem emitAll_length (es : List OutEvent) : (s.emitAll es).length = s.length := rfl
@[simp] theorem emitAll_data (es : List OutEvent) : (s.emitAll es).data = s.data := rfl
@[simp] theorem emitAll_buf (es : List OutEvent) : (s.emitAll es).buf = s.buf := rfl
@[simp] theorem emitAll_cursor (es : List OutEvent) : (s.emitAll es).cursor = s.cursor := rfl
@[simp] theorem emitAll_pbuf (es : List OutEvent) : (s.emitAll es).pbuf = s.pbuf := rfl
@[simp] theorem emitAll_inq (es : List OutEvent) : (s.emitAll es).inq = s.inq := rfl
@[simp] theorem emitAll_out (es : List OutEvent) : (s.emitAll es).out = s.out ++ es := rfl
@[simp] theorem emitAll_ret (es : List OutEvent) : (s.emitAll es).ret = s.ret := rfl

/-! `emit` and `emitLink` are `emitAll`; consecutive outputs are one output. -/

@[simp] theorem emit_eq (e : OutEvent) : s.emit e = s.emitAll [e] := rfl
@[simp] theorem emitLink_eq (bs : List Byte) : s.emitLink bs = s.emitAll (bs.map OutEvent.linkTx) := rfl
@[simp] theorem emitAll_nil : s.emitAll [] = s := by ext <;> simp
@[simp] theorem emitAll_emitAll (es fs : List OutEvent) : (s.emitAll es).emitAll fs = s.emitAll (es ++ fs) := by
  ext <;> simp
@[simp] theorem plen_eq : s.plen = s.pbuf.length := rfl
@[simp] theorem setPbuf_setPbuf (cs ds : List Byte) : (s.setPbuf cs).setPbuf ds = s.setPbuf ds := rfl

/-! Updates of different fields commute; this order is the normal form. -/

@[simp] theorem setPbuf_emitAll (cs : List Byte) (es : List OutEvent) :
    (s.setPbuf cs).emitAll es = (s.emitAll es).setPbuf cs := rfl
@[simp] theorem setData_emitAll (v : Byte) (es : List OutEvent) :
    (s.setData v).emitAll es = (s.emitAll es).setData v := rfl

end Sys2Proof.Machine.State
end

