-- ==== Sys2Proof/Laws/Ops.lean ====
section
/-! SUPPORT. For each shared operation, everything it can do, said once. -/

namespace Sys2Proof.Machine

/-! ### Sequencing -/

@[simp] theorem andThen_next (s : State) (k : State → Result) : andThen (.next s) k = k s := rfl
@[simp] theorem andThen_fault (e : Fault) (k : State → Result) : andThen (.fault e) k = .fault e := rfl
@[simp] theorem andThen_refused (e : Refusal) (k : State → Result) : andThen (.refused e) k = .refused e := rfl

theorem andThen_eq_next {r : Result} {k : State → Result} {t : State} :
    andThen r k = .next t ↔ ∃ s, r = .next s ∧ k s = .next t := by
  cases r <;> simp [andThen]

/-! ### The buffers -/

theorem bufWrite_of_lt {i : Nat} {v : Byte} {s : State} (h : i < s.cfg.lineCap) :
    bufWrite i v s = .next (s.setBuf (s.buf.write i v)) := by simp [bufWrite, h]

theorem bufWrite_eq_next {i : Nat} {v : Byte} {s t : State} :
    bufWrite i v s = .next t ↔ i < s.cfg.lineCap ∧ t = s.setBuf (s.buf.write i v) := by
  simp only [bufWrite]; split <;> simp_all [eq_comm]

theorem pbufAppend_of_le {cs : List Byte} {s : State} (h : s.plen + cs.length ≤ s.cfg.payloadCap) :
    pbufAppend cs s = .next (s.setPbuf (s.pbuf ++ cs)) := by simp only [pbufAppend, h, if_true]

theorem pbufAppend_of_gt {cs : List Byte} {s : State} (h : s.cfg.payloadCap < s.plen + cs.length) :
    pbufAppend cs s = .refused .payloadOverflow := by simp only [pbufAppend, Nat.not_le.mpr h, if_false]

/-! ### The serializer -/

@[simp] theorem hexOfByte_length (v : Byte) : (hexOfByte v).length = 2 := rfl

/-- The characters a payload item adds to `pbuf`. -/
def itemChars : Item → List Byte
  | .byte v => hexOfByte v
  | .word v => hexOfByte (loByte v) ++ hexOfByte (hiByte v)

/-- Two appends, one after the other, are one append. -/
theorem pbufAppend_pbufAppend (cs ds : List Byte) (s : State) :
    andThen (pbufAppend cs s) (pbufAppend ds) = pbufAppend (cs ++ ds) s := by
  by_cases h1 : s.plen + cs.length ≤ s.cfg.payloadCap
  · rw [pbufAppend_of_le h1, andThen_next]
    simp only [pbufAppend, State.plen_eq, State.setPbuf_pbuf, State.setPbuf_cfg, List.length_append, Nat.add_assoc,
      List.append_assoc, State.setPbuf_setPbuf]
  · rw [pbufAppend_of_gt (Nat.not_le.mp h1), pbufAppend_of_gt (by simp at h1 ⊢; omega), andThen_refused]

/-- `SER.WORD` appends its four characters or is refused as a whole. -/
theorem execSerWord_eq (v : Word16) (s : State) : execSerWord v s = pbufAppend (itemChars (.word v)) s :=
  pbufAppend_pbufAppend (hexOfByte (loByte v)) (hexOfByte (hiByte v)) s

/-- Items append all their characters, or the command is refused. -/
theorem serItems_eq (items : List Item) (s : State) (hs : s.plen ≤ s.cfg.payloadCap) :
    serItems items s = if s.plen + (items.flatMap itemChars).length ≤ s.cfg.payloadCap
      then .next (s.setPbuf (s.pbuf ++ items.flatMap itemChars)) else .refused .payloadOverflow := by
  induction items generalizing s with
  | nil =>
    have : s.setPbuf s.pbuf = s := rfl
    simp at hs; simp [serItems, hs, this]
  | cons item rest ih =>
    have key : serItems (item :: rest) s = andThen (pbufAppend (itemChars item) s) (serItems rest) := by
      cases item with
      | byte v => rfl
      | word v => simp only [serItems, execSerWord_eq]
    rw [key]
    by_cases h1 : s.plen + (itemChars item).length ≤ s.cfg.payloadCap
    · rw [pbufAppend_of_le h1, andThen_next, ih _ (by simpa using h1)]
      simp [Nat.add_assoc]
    · rw [pbufAppend_of_gt (Nat.not_le.mp h1)]
      have : ¬ (s.plen + ((item :: rest).flatMap itemChars).length ≤ s.cfg.payloadCap) := by
        simp at h1 ⊢; omega
      rw [if_neg this]; rfl

/-- The characters of a string go to the link two at a time; nothing else changes. -/
theorem serChars_eq (str : List Byte) (s : State) : serChars str s = .next (s.emitLink (str.flatMap hexOfByte)) := by
  induction str generalizing s with
  | nil => simp [serChars]
  | cons ch rest ih => simp [serChars, execSerChar, ih]

/-- A sub-field of the aggregated packet. -/
theorem subField_eq (t : Byte) (items : List Item) (s : State)
    (h : (items.flatMap itemChars).length ≤ s.cfg.payloadCap) :
    subField t items s = .next ((s.emitLink (t :: sepKey :: (items.flatMap itemChars ++ [sepSingle]))).setPbuf
      (items.flatMap itemChars)) := by
  simp only [subField]
  rw [serItems_eq _ _ (by simp), if_pos (by simpa using h)]
  simp

/-! ### The dispatcher and the line classification: events only -/

/-- The events the dispatcher emits for a pair (R170). -/
def dspEvents (c : Config) (t d : Byte) : List OutEvent :=
  if t = tagLed then
    [.act (if d.getLsbD 4 then .errLed else .dataLed) (if d.getLsbD 0 then 1#1 else 0#1)]
  else if t = c.tagSerial then [.linkTx d] else []

theorem dspRun_eq (t d : Byte) (s : State) : dspRun t d s = .next (s.emitAll (dspEvents s.cfg t d)) := by
  simp only [dspRun, dspEvents, execDspLedErrOn, execDspLedErrOff, execDspLedDataOn, execDspLedDataOff, execDspSerial,
    execDspNop]
  split_ifs <;> simp

/-- The events a line text leads to (R184). -/
def lineEvents (text : List Byte) : List OutEvent :=
  if text = textHello then [.conTx 0x68#8, .conTx 0x69#8]
  else if text = textDataOff then [.act .dataLed 0#1]
  else if text = textDataOn then [.act .dataLed 1#1]
  else if text = textErrOff then [.act .errLed 0#1]
  else if text = textErrOn then [.act .errLed 1#1]
  else []

theorem classify_eq (text : List Byte) (s : State) : classify text s = .next (s.emitAll (lineEvents text)) := by
  simp only [classify, lineEvents, execLinHello, execLinDataOff, execLinDataOn, execLinErrOff, execLinErrOn, execLinNoMatch]
  split_ifs <;> simp

/-- A termination at a cursor inside the buffer. -/
theorem terminate_eq (s : State) (h : s.cursor < s.cfg.lineCap) :
    terminate s = .next (((s.setBuf (s.buf.write s.cursor nulByte)).emitAll
      (lineEvents (lineText (s.setBuf (s.buf.write s.cursor nulByte))))).setCursor 0) := by
  simp only [terminate, bufWrite_of_lt h, andThen_next, classify_eq]

theorem terminate_fault (s : State) (h : ¬ s.cursor < s.cfg.lineCap) : terminate s = .fault .bufIndexOutOfRange := by
  simp [terminate, bufWrite, h]

/-- A parser transition on the second character of a pair: one dispatch, then the dispatcher's events. -/
theorem execParOdd_eq (b : Byte) (s : State) :
    execParOdd b s = .next (countNibble .payloadNibbleEven ((s.setData (shiftIn s.data b)).emitAll
      (.dispatch s.tag (shiftIn s.data b) :: dspEvents s.cfg s.tag (shiftIn s.data b)))) := by
  simp [execParOdd, dspRun_eq]

/-! ### The line text -/

/-- The text is the bytes from index 0 up to the first NUL. -/
theorem lineText_of_nul (s : State) (n : Nat) (hn : n < s.cfg.lineCap) (hz : s.buf.read n = nulByte)
    (hnz : ∀ i, i < n → s.buf.read i ≠ nulByte) : lineText s = (List.range n).map s.buf.read := by
  have hsplit : List.range s.cfg.lineCap = List.range n ++ (List.range' n (s.cfg.lineCap - n)) := by
    rw [List.range_eq_range', List.range_eq_range']
    have := List.range'_append (s := 0) (m := n) (n := s.cfg.lineCap - n) (step := 1)
    simp at this; rw [this]; congr; omega
  have htail : List.range' n (s.cfg.lineCap - n) = n :: List.range' (n + 1) (s.cfg.lineCap - n - 1) := by
    rw [show s.cfg.lineCap - n = (s.cfg.lineCap - n - 1) + 1 by omega, List.range'_succ]; simp
  unfold lineText
  rw [hsplit, htail, List.map_append, List.takeWhile_append_of_pos]
  · simp [hz]
  · intro b hb
    obtain ⟨i, hi, rfl⟩ := List.mem_map.mp hb
    simpa using hnz i (List.mem_range.mp hi)

end Sys2Proof.Machine
end

