-- ==== Sys2Proof/Laws/PerInstr.lean ====
section
/-! SUPPORT. The family RoundTrip, one lemma per operation: decoding the selector an operation encodes to gives it back. -/

namespace Sys2Proof.Laws.RoundTrip

/-- Decoding the encoding of a well-formed operation gives the operation, under every parameter choice. -/
def Statement (i : Instr) : Prop :=
  ∀ c : Config, WellFormed c i = true → decode c (encode c i).1 (encode c i).2 = .ok i

theorem hexEnc (n : Nibble) : Statement (.hexEnc n) := fun c _ => by simp [encode, decode, decodeFunc]
theorem hexDec (ch : Byte) : Statement (.hexDec ch) := fun _ _ => rfl
theorem serByte (v : Byte) : Statement (.serByte v) := fun _ _ => rfl
theorem serWord (v : Word16) : Statement (.serWord v) := fun c _ => by simp [encode, encodeWord, decode, decodeFunc]
theorem serChar (ch : Byte) : Statement (.serChar ch) := fun _ _ => rfl
theorem frmSingle (t : Byte) (items : List Item) : Statement (.frmSingle t items) := fun c _ => by simp [encode, decode, decodeFrm, decodeItems_encodeItem]
theorem frmString (t : Byte) (str : List Byte) : Statement (.frmString t str) := fun _ _ => rfl
theorem frmAgg (a : AggOperands) : Statement (.frmAgg a) := fun c _ => by simp [encode, encodeWord, decode, decodeFrm, decodeAgg, bind, Except.bind]
theorem valButton (btn : Bit) : Statement (.valButton btn) := fun c _ => by simp [encode, decode, decodeFunc, bind, Except.bind]
theorem valLed (conn : Bit) (eled : Bit) (dled : Bit) : Statement (.valLed conn eled dled) := fun c _ => by simp [encode, decode, decodeFunc, bind, Except.bind]
theorem valGpio (gpio1 : Bit) (gpio2 : Bit) : Statement (.valGpio gpio1 gpio2) := fun c _ => by simp [encode, decode, decodeFunc, bind, Except.bind]
theorem valAxis (a : Word16) : Statement (.valAxis a) := fun c _ => by simp [encode, encodeWord, decode, decodeFunc]
theorem parStart : Statement (.parStart) := fun _ _ => rfl
theorem parSkip (b : Byte) : Statement (.parSkip b) := fun c h => by
  simp only [WellFormed, decide_eq_true_eq] at h
  simp [encode, decode, decodePar, decodeTransition, h]

theorem parSeq (b : Byte) : Statement (.parSeq b) := fun _ _ => rfl
theorem parTag (b : Byte) : Statement (.parTag b) := fun _ _ => rfl
theorem parLenHi (b : Byte) : Statement (.parLenHi b) := fun _ _ => rfl
theorem parLenLo (b : Byte) : Statement (.parLenLo b) := fun _ _ => rfl
theorem parEven (b : Byte) : Statement (.parEven b) := fun _ _ => rfl
theorem parOdd (b : Byte) : Statement (.parOdd b) := fun _ _ => rfl
theorem dspLedDataOff (d : Byte) : Statement (.dspLedDataOff d) := fun c h => by
  simp only [WellFormed, Bool.and_eq_true, Bool.not_eq_true'] at h
  simp only [encode, decode, decodeDsp, decodeDispatch, h, if_true, if_false, Bool.false_eq_true]

theorem dspLedDataOn (d : Byte) : Statement (.dspLedDataOn d) := fun c h => by
  simp only [WellFormed, Bool.and_eq_true, Bool.not_eq_true'] at h
  simp only [encode, decode, decodeDsp, decodeDispatch, h, if_true, if_false, Bool.false_eq_true]

theorem dspLedErrOff (d : Byte) : Statement (.dspLedErrOff d) := fun c h => by
  simp only [WellFormed, Bool.and_eq_true, Bool.not_eq_true'] at h
  simp only [encode, decode, decodeDsp, decodeDispatch, h, if_true, if_false, Bool.false_eq_true]

theorem dspLedErrOn (d : Byte) : Statement (.dspLedErrOn d) := fun c h => by
  simp only [WellFormed, Bool.and_eq_true] at h
  simp only [encode, decode, decodeDsp, decodeDispatch, h, if_true]

theorem dspSerial (d : Byte) : Statement (.dspSerial d) := fun c h => by
  simp only [WellFormed, decide_eq_true_eq] at h
  simp [encode, decode, decodeDsp, decodeDispatch, h]

theorem dspNop (t : Byte) (d : Byte) : Statement (.dspNop t d) := fun c h => by
  simp only [WellFormed, Bool.and_eq_true, decide_eq_true_eq] at h
  simp [encode, decode, decodeDsp, decodeDispatch, h]

theorem linTermCr : Statement (.linTermCr) := fun _ _ => rfl
theorem linTermLf : Statement (.linTermLf) := fun _ _ => rfl
theorem linChar (b : Byte) : Statement (.linChar b) := fun c h => by
  simp only [WellFormed, Bool.and_eq_true, decide_eq_true_eq] at h
  simp [encode, decode, decodeLinByte, decodeConsole, h]

theorem linHello : Statement (.linHello) := fun _ _ => rfl
theorem linDataOff : Statement (.linDataOff) := fun _ _ => rfl
theorem linDataOn : Statement (.linDataOn) := fun _ _ => rfl
theorem linErrOff : Statement (.linErrOff) := fun _ _ => rfl
theorem linErrOn : Statement (.linErrOn) := fun _ _ => rfl
theorem linNoMatch (text : List Byte) : Statement (.linNoMatch text) := fun c h => by
  simp only [WellFormed, decide_eq_true_eq] at h
  simp [encode, decode, decodeText_of_not_mem text h]

theorem reset : Statement (.reset) := fun _ _ => rfl

end Sys2Proof.Laws.RoundTrip
end

