-- ==== Sys2Proof/Laws/Step.lean ====
section
/-! SUPPORT. One step, event by event: what it selects and runs. -/

namespace Sys2Proof.Machine

theorem step_of_decode {s : State} {e : InEvent} {rest : List InEvent} {i : Instr} (hc : s.cfg.ok = true)
    (hq : s.inq = e :: rest) (hd : decode s.cfg (selectorOf s e).1 (selectorOf s e).2 = .ok i) :
    step s = exec i (s.setInq rest) := by
  simp only [step, hc, if_true, hq, hd]

theorem step_linkRx {s : State} {b : Byte} {rest : List InEvent} (hc : s.cfg.ok = true) (hq : s.inq = .linkRx b :: rest) :
    step s = exec (decodeTransition s.pstate b) (s.setInq rest) :=
  step_of_decode hc hq (decodePar_code s.pstate b)

theorem step_conRx {s : State} {b : Byte} {rest : List InEvent} (hc : s.cfg.ok = true) (hq : s.inq = .conRx b :: rest) :
    step s = exec (decodeConsole b) (s.setInq rest) :=
  step_of_decode hc hq rfl

theorem step_reset {s : State} {rest : List InEvent} (hc : s.cfg.ok = true) (hq : s.inq = .reset :: rest) :
    step s = exec .reset (s.setInq rest) :=
  step_of_decode hc hq rfl

theorem step_dspCall {s : State} {t d : Byte} {rest : List InEvent} (hc : s.cfg.ok = true)
    (hq : s.inq = .dspCall t d :: rest) : step s = exec (decodeDispatch s.cfg t d) (s.setInq rest) :=
  step_of_decode hc hq rfl

theorem step_lineCall {s : State} {text : List Byte} {rest : List InEvent} (hc : s.cfg.ok = true)
    (hq : s.inq = .lineCall text :: rest) : step s = exec (decodeText text) (s.setInq rest) :=
  step_of_decode hc hq rfl

theorem step_idle {s : State} (hc : s.cfg.ok = true) (hq : s.inq = []) : step s = .next s := by
  simp only [step, hc, if_true, hq]

/-- A step that answers a next state had admitted parameters, and ran the operation its oldest event names or had none. -/
theorem step_eq_next {s t : State} (h : step s = .next t) :
    s.cfg.ok = true ∧ ((s.inq = [] ∧ t = s) ∨ ∃ e rest i, s.inq = e :: rest ∧
      decode s.cfg (selectorOf s e).1 (selectorOf s e).2 = .ok i ∧ exec i (s.setInq rest) = .next t) := by
  simp only [step] at h
  split at h
  · rename_i hc
    refine ⟨hc, ?_⟩
    split at h
    · rename_i hq
      exact .inl ⟨hq, by simpa using h.symm⟩
    · rename_i e rest hq
      split at h
      · rename_i i hd
        exact .inr ⟨e, rest, i, hq, hd, h⟩
      · cases h
  · cases h

/-- The operation a dispatched pair selects does what the parser's step does with the pair inside it. -/
theorem exec_decodeDispatch (t d : Byte) (s : State) : exec (decodeDispatch s.cfg t d) s = dspRun t d s := by
  simp only [decodeDispatch, dspRun]
  split_ifs <;> rfl

/-- The operation a line text selects does what the termination does with the text inside its step. -/
theorem exec_decodeText (text : List Byte) (s : State) : exec (decodeText text) s = classify text s := by
  simp only [decodeText, classify]
  split_ifs <;> rfl

@[simp] theorem run_zero (s : State) : run 0 s = .next s := rfl
@[simp] theorem run_succ (n : Nat) (s : State) : run (n + 1) s = andThen (step s) (run n) := rfl

/-- A run of `m + n` steps is a run of `m` steps and then one of `n`. -/
theorem run_add (m n : Nat) (s : State) : run (m + n) s = andThen (run m s) (run n) := by
  induction m generalizing s with
  | zero => simp
  | succ m ih =>
    rw [Nat.add_right_comm, run_succ, run_succ]
    cases step s with
    | next u => simpa using ih u
    | fault e => rfl
    | refused e => rfl

end Sys2Proof.Machine
end

