-- ==== Sys2Proof/Tests/Slice0.lean ====
section
/-! SUPPORT. Checks of the model's own text: ill-formed terms are refused, selector words written out from
30_encoding.md R90 and R91 decode, single operations give what 95_test_vectors.md records (vector names in the
comments), and the hypotheses of each obligation are met by a concrete state. -/

namespace Sys2Proof.Tests

open Sys2Proof.Machine Sys2Proof.SpecText

/-- The default parameters. -/
def c0 : Config := Config.defaults
/-- The state after reset at the default parameters. -/
def s0 : State := State.reset

/-- Whether an operation ends in a next state with a property. -/
def nextIs (r : Result) (p : State → Bool) : Bool :=
  match r with
  | .next s => p s
  | .fault _ => false
  | .refused _ => false

/-- Whether an operation ends in exactly this next state. -/
def gives (r : Result) (t : State) : Bool := nextIs r fun u => decide (u = t)

/-- Whether an operation is refused for this reason. -/
def refuses (r : Result) (e : Refusal) : Bool :=
  match r with
  | .next _ => false
  | .fault _ => false
  | .refused f => decide (f = e)

/-- The parser registers at (`pstate`, `tag`, `length`, `data`). -/
def parAt (p : PState) (t l d : Byte) : State := { s0 with pstate := p, tag := t, length := l, data := d }

/-- A line being accumulated, from index 0. -/
def lineAt (cap : Nat) (text : List Byte) : State :=
  { s0 with cfg := { c0 with lineCap := cap }, cursor := text.length,
            buf := (List.range text.length).zip text }

/-- A state with an event waiting. -/
def waiting (s : State) (e : InEvent) : State := { s with inq := [e] }

/-- A state with several bytes waiting on the link, or on the console. -/
def onLink (s : State) (bs : List Byte) : State := { s with inq := bs.map InEvent.linkRx }
def onConsole (s : State) (bs : List Byte) : State := { s with inq := bs.map InEvent.conRx }

/-- A state with a number of characters `0` in the payload buffer. -/
def pbufOf (n : Nat) : State := { s0 with pbuf := List.replicate n 0x30#8 }

/-! ### WellFormed refuses -/

theorem test_wf_skip_of_start : WellFormed c0 (.parSkip 0x7B#8) = false := by decide
theorem test_wf_data_off_bit4 : WellFormed c0 (.dspLedDataOff 0x10#8) = false := by decide
theorem test_wf_data_off_bit0 : WellFormed c0 (.dspLedDataOff 0x01#8) = false := by decide
theorem test_wf_data_on_bit4 : WellFormed c0 (.dspLedDataOn 0x11#8) = false := by decide
theorem test_wf_data_on_bit0 : WellFormed c0 (.dspLedDataOn 0x00#8) = false := by decide
theorem test_wf_err_off_bit4 : WellFormed c0 (.dspLedErrOff 0x00#8) = false := by decide
theorem test_wf_err_off_bit0 : WellFormed c0 (.dspLedErrOff 0x11#8) = false := by decide
theorem test_wf_err_on_bit4 : WellFormed c0 (.dspLedErrOn 0x01#8) = false := by decide
theorem test_wf_err_on_bit0 : WellFormed c0 (.dspLedErrOn 0x10#8) = false := by decide
theorem test_wf_serial_equal_tags : WellFormed { c0 with tagSerial := 0x4C#8 } (.dspSerial 0x00#8) = false := by decide
theorem test_wf_nop_led_tag : WellFormed c0 (.dspNop 0x4C#8 0x00#8) = false := by decide
theorem test_wf_nop_serial_tag : WellFormed c0 (.dspNop 0x53#8 0x00#8) = false := by decide
theorem test_wf_char_cr : WellFormed c0 (.linChar 0x0D#8) = false := by decide
theorem test_wf_char_lf : WellFormed c0 (.linChar 0x0A#8) = false := by decide
theorem test_wf_nomatch_vocabulary : WellFormed c0 (.linNoMatch (ascii ['l', 'e', 'd', ' ', 'e', 'r', 'r', ' ', 'o', 'n'])) = false := by
  decide

/-! ### Selector words, from R90 and R91 (FUNC and FRM operands in the layout of log 6) -/

theorem test_decode_hex_enc : decode c0 .func [0x00#8, 0x0F#8] = .ok (.hexEnc 0xF#4) := by decide
theorem test_decode_hex_dec : decode c0 .func [0x01#8, 0x41#8] = .ok (.hexDec 0x41#8) := by decide
theorem test_decode_ser_byte : decode c0 .func [0x02#8, 0xA7#8] = .ok (.serByte 0xA7#8) := by decide
theorem test_decode_ser_word : decode c0 .func [0x03#8, 0x34#8, 0x12#8] = .ok (.serWord 0x1234#16) := by decide
theorem test_decode_ser_char : decode c0 .func [0x04#8, 0x7D#8] = .ok (.serChar 0x7D#8) := by decide
theorem test_decode_frm_single : decode c0 .frm [0x00#8, 0x52#8, 0x00#8, 0xA7#8, 0x01#8, 0x00#8, 0x80#8] =
    .ok (.frmSingle 0x52#8 [.byte 0xA7#8, .word 0x8000#16]) := by decide
theorem test_decode_frm_string : decode c0 .frm [0x01#8, 0x53#8, 0x68#8, 0x69#8] =
    .ok (.frmString 0x53#8 [0x68#8, 0x69#8]) := by decide
theorem test_decode_frm_agg : decode c0 .frm [0x02#8, 0x01#8, 0x01#8, 0x00#8, 0x01#8, 0x01#8, 0x00#8, 0xFA#8, 0x00#8,
    0x34#8, 0x12#8, 0xFF#8, 0xFF#8, 0x10#8, 0x00#8] =
    .ok (.frmAgg ⟨1#1, 1#1, 0#1, 1#1, 1#1, 0#1, 0x00FA#16, 0x1234#16, 0xFFFF#16, 0x0010#16⟩) := by decide
theorem test_decode_val_button : decode c0 .func [0x05#8, 0x01#8] = .ok (.valButton 1#1) := by decide
theorem test_decode_val_led : decode c0 .func [0x06#8, 0x01#8, 0x00#8, 0x01#8] = .ok (.valLed 1#1 0#1 1#1) := by decide
theorem test_decode_val_gpio : decode c0 .func [0x07#8, 0x01#8, 0x00#8] = .ok (.valGpio 1#1 0#1) := by decide
theorem test_decode_val_axis : decode c0 .func [0x08#8, 0x34#8, 0x12#8] = .ok (.valAxis 0x1234#16) := by decide
/-- 000 01111011. -/
theorem test_decode_par_start : decode c0 .par [0b000#8, 0b01111011#8] = .ok .parStart := by decide
/-- 000 01111101. -/
theorem test_decode_par_skip : decode c0 .par [0b000#8, 0b01111101#8] = .ok (.parSkip 0x7D#8) := by decide
/-- 001 00110000. -/
theorem test_decode_par_seq : decode c0 .par [0b001#8, 0b00110000#8] = .ok (.parSeq 0x30#8) := by decide
/-- 010 01001100. -/
theorem test_decode_par_tag : decode c0 .par [0b010#8, 0b01001100#8] = .ok (.parTag 0x4C#8) := by decide
/-- 011 00110000. -/
theorem test_decode_par_len_hi : decode c0 .par [0b011#8, 0b00110000#8] = .ok (.parLenHi 0x30#8) := by decide
/-- 100 00110010. -/
theorem test_decode_par_len_lo : decode c0 .par [0b100#8, 0b00110010#8] = .ok (.parLenLo 0x32#8) := by decide
/-- 101 01111011. -/
theorem test_decode_par_even : decode c0 .par [0b101#8, 0b01111011#8] = .ok (.parEven 0x7B#8) := by decide
/-- 110 00110001. -/
theorem test_decode_par_odd : decode c0 .par [0b110#8, 0b00110001#8] = .ok (.parOdd 0x31#8) := by decide
/-- 01001100 11101110. -/
theorem test_decode_dsp_data_off : decode c0 .dsp [0b01001100#8, 0b11101110#8] = .ok (.dspLedDataOff 0xEE#8) := by decide
/-- 01001100 11101111. -/
theorem test_decode_dsp_data_on : decode c0 .dsp [0b01001100#8, 0b11101111#8] = .ok (.dspLedDataOn 0xEF#8) := by decide
/-- 01001100 11111110. -/
theorem test_decode_dsp_err_off : decode c0 .dsp [0b01001100#8, 0b11111110#8] = .ok (.dspLedErrOff 0xFE#8) := by decide
/-- 01001100 00010001. -/
theorem test_decode_dsp_err_on : decode c0 .dsp [0b01001100#8, 0b00010001#8] = .ok (.dspLedErrOn 0x11#8) := by decide
theorem test_decode_dsp_serial : decode c0 .dsp [0x53#8, 0x11#8] = .ok (.dspSerial 0x11#8) := by decide
theorem test_decode_dsp_nop : decode c0 .dsp [0x6C#8, 0x01#8] = .ok (.dspNop 0x6C#8 0x01#8) := by decide
theorem test_decode_lin_cr : decode c0 .linByte [0x0D#8] = .ok .linTermCr := by decide
theorem test_decode_lin_lf : decode c0 .linByte [0x0A#8] = .ok .linTermLf := by decide
theorem test_decode_lin_char : decode c0 .linByte [0x7B#8] = .ok (.linChar 0x7B#8) := by decide
theorem test_decode_lin_hello : decode c0 .linText (bytesOfNat 5 0x48656C6C6F) = .ok .linHello := by decide
theorem test_decode_lin_data_off : decode c0 .linText (bytesOfNat 12 0x6C65642064617461206F6666) = .ok .linDataOff := by
  decide
theorem test_decode_lin_data_on : decode c0 .linText (bytesOfNat 11 0x6C65642064617461206F6E) = .ok .linDataOn := by decide
theorem test_decode_lin_err_off : decode c0 .linText (bytesOfNat 11 0x6C656420657272206F6666) = .ok .linErrOff := by decide
theorem test_decode_lin_err_on : decode c0 .linText (bytesOfNat 10 0x6C656420657272206F6E) = .ok .linErrOn := by decide
/-- L5: the near miss "hello" in lower case. -/
theorem test_decode_lin_nomatch : decode c0 .linText (bytesOfNat 5 0x68656C6C6F) =
    .ok (.linNoMatch (ascii ['h', 'e', 'l', 'l', 'o'])) := by decide
theorem test_decode_reset : decode c0 .event [] = .ok .reset := by decide
/-- State code 7 is never produced (R21). -/
theorem test_decode_code_seven : decode c0 .par [0x07#8, 0x7B#8] = .error .unusedStateCode := by decide
/-- A raw flag outside its width (R122). -/
theorem test_decode_wide_flag : decode c0 .func [0x05#8, 0x02#8] = .error .operandTooWide := by decide

/-! ### One operation each, from 95_test_vectors.md -/

/-- Section 2.1. -/
theorem test_hex_enc_ten : gives (exec (.hexEnc 0xA#4) s0)
    { s0 with ret := .byte 0x41#8 } = true := by decide
/-- Section 2.1: 0xB5 takes the letter branch. -/
theorem test_hex_dec_b5 : gives (exec (.hexDec 0xB5#8) s0)
    { s0 with ret := .nibble 0xE#4 } = true := by decide
/-- Section 2.1: lowercase. -/
theorem test_hex_dec_lower_b : gives (exec (.hexDec 0x62#8) s0)
    { s0 with ret := .nibble 0xB#4 } = true := by decide
/-- Section 2.2. -/
theorem test_ser_byte : gives (exec (.serByte 0xA7#8) s0)
    { s0 with pbuf := ascii ['A', '7'] } = true := by decide
/-- Section 2.2: 0x00FA. -/
theorem test_ser_word : gives (exec (.serWord 0x00FA#16) s0)
    { s0 with pbuf := ascii ['F', 'A', '0', '0'] } = true := by decide
/-- Section 2.2: 0x8000 after 0xA7. -/
theorem test_ser_word_after_byte : gives (exec (.serWord 0x8000#16) { s0 with pbuf := ascii ['A', '7'] })
    { s0 with pbuf := ascii ['A', '7', '0', '0', '8', '0'] } = true := by decide
/-- Section 2.2. -/
theorem test_ser_char : gives (exec (.serChar 0x7D#8) s0)
    { s0 with out := link (ascii ['7', 'D']) } = true := by decide
/-- Section 2.3: the temperature -10. -/
theorem test_frm_single : gives (exec (.frmSingle 0x54#8 [.word 0xFFF6#16]) s0)
    { s0 with out := link [0x7B#8, 0x54#8, 0x2C#8, 0x46#8, 0x36#8, 0x46#8, 0x46#8, 0x7D#8, 0x0D#8, 0x0A#8] } = true := by decide
/-- Section 2.3: 20 characters at `PAYLOAD_CAP` 16. -/
theorem test_frm_single_refused : refuses (exec (.frmSingle 0x58#8 [.word 1#16, .word 2#16, .word 3#16, .word 4#16, .word 5#16]) s0)
    .payloadOverflow = true := by decide
/-- Section 2.3: the closing characters as string data. -/
theorem test_frm_string : gives (exec (.frmString 0x53#8 [0x7D#8, 0x0D#8, 0x0A#8]) s0)
    { s0 with out := link ([0x7B#8, 0x53#8, 0x2C#8] ++
        [0x37#8, 0x44#8, 0x30#8, 0x44#8, 0x30#8, 0x41#8, 0x7D#8, 0x0D#8, 0x0A#8]) } = true := by decide
/-- Section 2.3, the first row, byte by byte. -/
theorem test_frm_agg : gives (exec (.frmAgg ⟨1#1, 1#1, 0#1, 1#1, 1#1, 0#1, 0x00FA#16, 0x1234#16, 0xFFFF#16, 0x0010#16⟩) s0)
    { s0 with out := link (
      [0x7B#8, 0x50#8, 0x3A#8, 0x30#8, 0x30#8, 0x2C#8, 0x4C#8, 0x3A#8, 0x30#8, 0x34#8, 0x2C#8, 0x47#8, 0x3A#8, 0x30#8] ++
      [0x31#8, 0x2C#8, 0x54#8, 0x3A#8, 0x46#8, 0x41#8, 0x30#8, 0x30#8, 0x2C#8, 0x58#8, 0x3A#8, 0x33#8, 0x34#8, 0x30#8] ++
      [0x32#8, 0x46#8, 0x46#8, 0x30#8, 0x46#8, 0x31#8, 0x30#8, 0x30#8, 0x30#8, 0x2C#8, 0x7D#8, 0x0D#8, 0x0A#8]) } = true := by decide
/-- V5. -/
theorem test_val_button_pressed : gives (exec (.valButton 0#1) s0)
    { s0 with ret := .byte 0x01#8 } = true := by decide
/-- R126 by the aggregated packets of section 2.3: connected, both raw levels as in rows one and two. -/
theorem test_val_led_connected : gives (exec (.valLed 1#1 0#1 1#1) s0)
    { s0 with ret := .byte 0x04#8 } = true := by decide
theorem test_val_led_error : gives (exec (.valLed 0#1 1#1 0#1) s0)
    { s0 with ret := .byte 0x03#8 } = true := by decide
/-- Section 2.3: `VAL.GPIO(1,0) = 1`. -/
theorem test_val_gpio : gives (exec (.valGpio 1#1 0#1) s0)
    { s0 with ret := .byte 0x01#8 } = true := by decide
/-- V6. -/
theorem test_val_axis : gives (exec (.valAxis 0x1234#16) s0)
    { s0 with ret := .word 0x0234#16 } = true := by decide
/-- V3, the first rows. -/
theorem test_par_start : gives (exec .parStart s0)
    { s0 with pstate := .sequenceNumber } = true := by decide
theorem test_par_skip : gives (exec (.parSkip 0x7D#8) (parAt .idle 0x4C#8 0x00#8 0x01#8))
    (parAt .idle 0x4C#8 0x00#8 0x01#8) = true := by decide
theorem test_par_seq : gives (exec (.parSeq 0x7B#8) (parAt .sequenceNumber 0x01#8 0x02#8 0x03#8))
    (parAt .packetId 0x01#8 0x02#8 0x03#8) = true := by decide
theorem test_par_tag : gives (exec (.parTag 0x4C#8) (parAt .packetId 0x01#8 0x02#8 0x03#8))
    (parAt .payloadSizeHigh 0x4C#8 0x02#8 0x03#8) = true := by decide
/-- P18: the length FF. -/
theorem test_par_len_hi : gives (exec (.parLenHi 0x46#8) (parAt .payloadSizeHigh 0x54#8 0x77#8 0x03#8))
    (parAt .payloadSizeLow 0x54#8 0x0F#8 0x03#8) = true := by decide
theorem test_par_len_lo : gives (exec (.parLenLo 0x46#8) (parAt .payloadSizeLow 0x54#8 0x0F#8 0x03#8))
    (parAt .payloadNibbleEven 0x54#8 0xFF#8 0x03#8) = true := by decide
/-- V3, the literal sequence: the last nibble held, no dispatch. -/
theorem test_par_even_last : gives (exec (.parEven 0x30#8) (parAt .payloadNibbleEven 0x4C#8 0x01#8 0x07#8))
    (parAt .idle 0x4C#8 0x00#8 0x00#8) = true := by decide
/-- P17: a declared 00 counts 256 nibbles. -/
theorem test_par_even_wrap : gives (exec (.parEven 0x34#8) (parAt .payloadNibbleEven 0x53#8 0x00#8 0x00#8))
    (parAt .payloadNibbleOdd 0x53#8 0xFF#8 0x04#8) = true := by decide
/-- V3, corrected: one dispatch, one action, `Idle`. -/
theorem test_par_odd_led : gives (exec (.parOdd 0x31#8) (parAt .payloadNibbleOdd 0x4C#8 0x01#8 0x00#8))
    { parAt .idle 0x4C#8 0x00#8 0x01#8 with out := [.dispatch 0x4C#8 0x01#8, .act .dataLed 1#1] } = true := by decide
/-- V8: the frame start as data. -/
theorem test_par_odd_frame_start : gives (exec (.parOdd 0x7B#8) (parAt .payloadNibbleOdd 0x53#8 0x03#8 0x04#8))
    { parAt .payloadNibbleEven 0x53#8 0x02#8 0x44#8 with out := [.dispatch 0x53#8 0x44#8, .linkTx 0x44#8] } = true := by decide
/-- Section 2.5. -/
theorem test_dsp_data_off : gives (exec (.dspLedDataOff 0xEE#8) s0)
    { s0 with out := [.act .dataLed 0#1] } = true := by decide
theorem test_dsp_data_on : gives (exec (.dspLedDataOn 0xEF#8) s0)
    { s0 with out := [.act .dataLed 1#1] } = true := by decide
theorem test_dsp_err_off : gives (exec (.dspLedErrOff 0xFE#8) s0)
    { s0 with out := [.act .errLed 0#1] } = true := by decide
theorem test_dsp_err_on : gives (exec (.dspLedErrOn 0x13#8) s0)
    { s0 with out := [.act .errLed 1#1] } = true := by decide
theorem test_dsp_serial : gives (exec (.dspSerial 0x0A#8) s0)
    { s0 with out := [.linkTx 0x0A#8] } = true := by decide
theorem test_dsp_nop : gives (exec (.dspNop 0x6C#8 0x01#8) s0)
    s0 = true := by decide
/-- L14 and L2: "Hello" and a terminator. -/
theorem test_lin_term_cr : nextIs (exec .linTermCr (lineAt 64 textHello))
    (fun t => decide (t.out = [.conTx 0x68#8, .conTx 0x69#8]) && decide (t.cursor = 0)) = true := by decide
/-- L2: an LF on the empty line left by CR. -/
theorem test_lin_term_lf_empty : nextIs (exec .linTermLf { lineAt 64 textHello with cursor := 0 })
    (fun t => decide (t.out = []) && decide (t.cursor = 0) && decide (t.buf.read 0 = 0x00#8) &&
      decide (t.buf.read 1 = 0x65#8)) = true := by decide
/-- V7. -/
theorem test_lin_term_lf : nextIs (exec .linTermLf (lineAt 64 textDataOn))
    (fun t => decide (t.out = [.act .dataLed 1#1]) && decide (t.cursor = 0) && decide (t.buf.read 11 = 0x00#8)) = true := by
  decide
/-- L9: stored, no output. -/
theorem test_lin_char : nextIs (exec (.linChar 0x61#8) (lineAt 64 (ascii ['l', 'e', 'd', ' ', 'd'])))
    (fun t => decide (t.out = []) && decide (t.cursor = 6) && decide (t.buf.read 5 = 0x61#8)) = true := by decide
/-- L14: the capacity cut at `LINE_CAP` 6. -/
theorem test_lin_char_full : nextIs (exec (.linChar 0x6F#8) (lineAt 6 (ascii ['H', 'e', 'l', 'l'])))
    (fun t => decide (t.out = [.conTx 0x68#8, .conTx 0x69#8]) && decide (t.cursor = 0) &&
      decide (t.buf.read 4 = 0x6F#8)) = true := by decide
/-- L3 and Program C. -/
theorem test_lin_hello : gives (exec .linHello s0)
    { s0 with out := [.conTx 0x68#8, .conTx 0x69#8] } = true := by decide
theorem test_lin_data_off : gives (exec .linDataOff s0)
    { s0 with out := [.act .dataLed 0#1] } = true := by decide
theorem test_lin_data_on : gives (exec .linDataOn s0)
    { s0 with out := [.act .dataLed 1#1] } = true := by decide
theorem test_lin_err_off : gives (exec .linErrOff s0)
    { s0 with out := [.act .errLed 0#1] } = true := by decide
theorem test_lin_err_on : gives (exec .linErrOn s0)
    { s0 with out := [.act .errLed 1#1] } = true := by decide
theorem test_lin_nomatch : gives (exec (.linNoMatch (ascii ['a', 's', 'e'])) s0)
    s0 = true := by decide
/-- P19: a reset in the middle of a packet. -/
theorem test_reset : nextIs (exec .reset { parAt .payloadNibbleEven 0x53#8 0x02#8 0x41#8 with cursor := 3, pbuf := [0x30#8] })
    (fun t => decide (t.pstate = .idle) && decide (t.cursor = 0) && decide (t.pbuf = []) && decide (t.out = [])) = true := by
  decide

/-! ### Witnesses: the hypotheses of each obligation that has some, clause by clause, at the ends of their ranges -/

theorem test_wit_ser_byte : (pbufOf 14).pbuf.length + 2 ≤ (pbufOf 14).cfg.payloadCap ∧
    (pbufOf 15).cfg.payloadCap < (pbufOf 15).pbuf.length + 2 := by decide
theorem test_wit_ser_word : (pbufOf 12).pbuf.length + 4 ≤ (pbufOf 12).cfg.payloadCap ∧
    (pbufOf 13).cfg.payloadCap < (pbufOf 13).pbuf.length + 4 := by decide
theorem test_wit_single_packet :
    (([.word 1#16, .word 2#16, .word 3#16, .word 4#16] : List Item).flatMap itemText).length ≤ s0.cfg.payloadCap ∧
    s0.cfg.payloadCap <
      (([.word 1#16, .word 2#16, .word 3#16, .word 4#16, .byte 5#8] : List Item).flatMap itemText).length := by decide
theorem test_wit_aggregated : 12 ≤ ({ s0 with cfg := { c0 with payloadCap := 12 } } : State).cfg.payloadCap := by decide
theorem test_wit_framer_frame :
    (nextIs (exec (.frmSingle 0x50#8 [.byte 1#8]) s0) fun _ => true) = true ∧
    (nextIs (exec (.frmString 0x53#8 [0x68#8]) (parAt .payloadNibbleOdd 1#8 2#8 3#8)) fun _ => true) = true ∧
    (nextIs (exec (.frmAgg ⟨0#1, 0#1, 0#1, 0#1, 0#1, 0#1, 0#16, 0#16, 0#16, 0#16⟩) s0) fun _ => true) = true := by decide
theorem test_wit_framer_refusals_selector : (waiting s0 (.frmCmd [3#8])).cfg.ok = true ∧
    (waiting s0 (.frmCmd [3#8])).inq = .frmCmd (3#8 :: []) :: [] ∧ 4 ≤ (4#8 : Byte).toNat ∧
    (waiting s0 (.frmCmd [4#8])).inq = .frmCmd (4#8 :: []) :: [] := ⟨by decide, rfl, by decide, rfl⟩
theorem test_wit_framer_refusals_flag : ∃ flags ops : List Byte, flags.length = 6 ∧ ops.length = 8 ∧
    (∃ f ∈ flags, 2 ≤ f.toNat) ∧
    (waiting s0 (.frmCmd (2#8 :: (flags ++ ops)))).inq = .frmCmd (2#8 :: (flags ++ ops)) :: [] :=
  ⟨[0#8, 0#8, 0#8, 0#8, 0#8, 2#8], List.replicate 8 0#8, by decide, by decide, by decide, rfl⟩
theorem test_wit_framer_refusals_overflow : ∃ items : List Item, s0.cfg.payloadCap < (items.flatMap itemText).length ∧
    (waiting s0 (.frmCmd (encode c0 (.frmSingle 0x52#8 items)).2)).inq =
      .frmCmd (encode c0 (.frmSingle 0x52#8 items)).2 :: [] := ⟨List.replicate 9 (.byte 0#8), by decide, rfl⟩
theorem test_wit_length : (parAt .payloadSizeLow 0#8 15#8 0#8).length.toNat < 16 := by decide
theorem test_wit_odd : (parAt .payloadNibbleOdd 0#8 1#8 15#8).data.toNat < 16 := by decide
theorem test_wit_link_step : (waiting s0 (.linkRx 0x7B#8)).cfg.ok = true ∧
    (waiting s0 (.linkRx 0x7B#8)).inq = .linkRx 0x7B#8 :: [] := by decide
theorem test_wit_no_resync :
    ∀ p ∈ [PState.sequenceNumber, .packetId, .payloadSizeHigh, .payloadSizeLow, .payloadNibbleEven, .payloadNibbleOdd],
      (waiting (parAt p 0x4C#8 2#8 3#8) (.linkRx 0x7B#8)).pstate = p ∧ p ≠ .idle ∧
      (waiting (parAt p 0x4C#8 2#8 3#8) (.linkRx 0x7B#8)).cfg.ok = true ∧
      (waiting (parAt p 0x4C#8 2#8 3#8) (.linkRx 0x7B#8)).inq = .linkRx 0x7B#8 :: [] := by decide
theorem test_wit_even_zero_from_header : gives (step (waiting (parAt .payloadSizeLow 0x53#8 0#8 0#8) (.linkRx 0x30#8)))
    (parAt .payloadNibbleEven 0x53#8 0#8 0#8) = true := by decide
theorem test_wit_even_zero_other_event :
    (nextIs (step (waiting (parAt .payloadNibbleEven 0x53#8 0#8 0#8) (.conRx 0x0A#8))) fun t =>
      decide (t.pstate = .payloadNibbleEven) && decide (t.length = 0#8)) = true := by decide
theorem test_wit_packet_two :
    (onLink s0 (0x7B#8 :: 0x30#8 :: 0x4C#8 :: 0x30#8 :: 0x32#8 :: ascii ['0', '1'])).cfg.ok = true ∧ s0.pstate = .idle ∧
    (ascii ['0', '1']).length = payloadCount 0x30#8 0x32#8 ∧
    (onLink s0 (0x7B#8 :: 0x30#8 :: 0x4C#8 :: 0x30#8 :: 0x32#8 :: ascii ['0', '1'])).inq =
      (0x7B#8 :: 0x30#8 :: 0x4C#8 :: 0x30#8 :: 0x32#8 :: ascii ['0', '1']).map InEvent.linkRx ++ [] ∧
    (1 ≤ 1 ∧ 1 < 5 + (ascii ['0', '1']).length) ∧ (1 ≤ 6 ∧ 6 < 5 + (ascii ['0', '1']).length) := by decide
theorem test_wit_packet_declared_zero : (List.replicate 256 0x41#8 : List Byte).length = payloadCount 0x30#8 0x30#8 ∧
    (List.replicate 255 0x41#8 : List Byte).length = payloadCount 0x46#8 0x46#8 ∧
    (List.replicate 1 0x41#8 : List Byte).length = payloadCount 0x30#8 0x31#8 ∧
    (onLink s0 (0x7B#8 :: 0x30#8 :: 0x53#8 :: 0x30#8 :: 0x30#8 :: List.replicate 256 0x41#8)).inq =
      (0x7B#8 :: 0x30#8 :: 0x53#8 :: 0x30#8 :: 0x30#8 :: List.replicate 256 0x41#8).map InEvent.linkRx ++ [] :=
  ⟨List.length_replicate.trans (by decide), List.length_replicate.trans (by decide), by decide, (List.append_nil _).symm⟩
theorem test_wit_flush : s0.cfg.ok = true ∧ (List.replicate 260 0x78#8 : List Byte).length = 260 ∧
    (∀ b ∈ (List.replicate 260 0x78#8 : List Byte), b ≠ 0x7B#8) ∧
    (onLink s0 (List.replicate 260 0x78#8)).inq = (List.replicate 260 0x78#8).map InEvent.linkRx ++ [] :=
  ⟨by decide, List.length_replicate, fun b hb => by rw [List.eq_of_mem_replicate hb]; decide, (List.append_nil _).symm⟩
theorem test_wit_named_led : (0x11, ActTarget.errLed, 1#1) ∈ [(0x00, ActTarget.dataLed, 0#1), (0x01, ActTarget.dataLed, 1#1),
    (0x10, ActTarget.errLed, 0#1), (0x11, ActTarget.errLed, 1#1)] ∧ s0.cfg.ok = true ∧ s0.pstate = .idle ∧
    (onLink s0 (0x7B#8 :: ascii ['7', 'L', '0', '2', '1', '1'])).inq =
      ([0x7B#8, 0x37#8] ++ ascii ['L', '0', '2'] ++ hexText 0x11).map InEvent.linkRx ++ [] := by decide
theorem test_wit_named_serial : ∀ n ∈ [1, 127], 1 ≤ (List.replicate n 0x41#8 : List Byte).length ∧
    (List.replicate n 0x41#8 : List Byte).length ≤ 127 ∧
    ∀ bytes : List Byte, (onLink s0 (0x7B#8 :: bytes)).inq = (0x7B#8 :: bytes).map InEvent.linkRx ++ [] := by
  simp [onLink]
theorem test_wit_data_led : (0xEF#8 : Byte).toNat / 16 % 2 = 0 := by decide
theorem test_wit_err_led : (0x10#8 : Byte).toNat / 16 % 2 = 1 := by decide
theorem test_wit_serial_tag : s0.cfg.tagSerial ≠ 0x4C#8 := by decide
theorem test_wit_other_tag : (0x6C#8 : Byte) ≠ 0x4C#8 ∧ (0x6C#8 : Byte) ≠ s0.cfg.tagSerial := by decide
theorem test_wit_dispatch_order : (waiting s0 (.dspCall 0x4C#8 0x11#8)).cfg.ok = true ∧
    (waiting s0 (.dspCall 0x4C#8 0x11#8)).inq = .dspCall 0x4C#8 0x11#8 :: [] ∧
    ({ s0 with cfg := { c0 with tagSerial := 0x4C#8 } } : State).cfg.tagSerial = 0x4C#8 := by decide
theorem test_wit_unmatched : wordOutput [] = [] ∧ wordOutput (ascii ['h', 'i']) = [] := by decide
theorem test_wit_terminators : ∀ n ∈ [0, 63], ({ s0 with cursor := n } : State).cursor < s0.cfg.lineCap ∧
    s0.buf.wf = true := by decide
theorem test_wit_characters : (({ s0 with cursor := 61 } : State).cursor + 2 < s0.cfg.lineCap) ∧
    (({ s0 with cursor := 62 } : State).cursor + 2 = s0.cfg.lineCap) ∧ s0.buf.wf = true := by decide
theorem test_wit_whole_line : s0.inv ∧ s0.cursor = 0 ∧ textHello.length + 2 ≤ s0.cfg.lineCap ∧
    (List.replicate 62 0x61#8 : List Byte).length + 2 ≤ s0.cfg.lineCap ∧
    (∀ b ∈ textHello, b ≠ 0x0D#8 ∧ b ≠ 0x0A#8) ∧ (∀ b ∈ (List.replicate 62 0x61#8 : List Byte), b ≠ 0x0D#8 ∧ b ≠ 0x0A#8) :=
  ⟨by decide, by decide, by decide, by decide, by decide, fun b hb => by rw [List.eq_of_mem_replicate hb]; decide⟩
theorem test_wit_whole_line_bytes : (onConsole s0 (textHello ++ [0x0A#8])).inq =
    (textHello ++ [0x0A#8]).map InEvent.conRx ++ [] ∧ (onConsole s0 (textHello ++ [0x0A#8])).inv :=
  ⟨(List.append_nil _).symm, by decide⟩
theorem test_wit_full_line : (onConsole (lineAt 6 []) textHello).inv ∧ (lineAt 6 []).cursor = 0 ∧
    textHello.length + 1 = (lineAt 6 []).cfg.lineCap ∧
    (onConsole (lineAt 6 []) textHello).inq = textHello.map InEvent.conRx ++ [] ∧
    (lineAt 2 []).inv ∧ [(0x61#8 : Byte)].length + 1 = (lineAt 2 []).cfg.lineCap :=
  ⟨by decide, by decide, by decide, (List.append_nil _).symm, by decide, by decide⟩
theorem test_wit_reset_inv : c0.ok = true ∧ Config.ok { c0 with lineCap := 2, payloadCap := 12 } = true := by decide
theorem test_wit_step_inv : (waiting s0 (.linkRx 0x7B#8)).inv ∧ (waiting s0 .reset).inv ∧
    (waiting (lineAt 6 (ascii ['H', 'e', 'l', 'l'])) (.conRx 0x6F#8)).inv ∧
    (nextIs (step (waiting s0 (.linkRx 0x7B#8))) fun _ => true) = true ∧
    (nextIs (step (waiting (lineAt 6 (ascii ['H', 'e', 'l', 'l'])) (.conRx 0x6F#8))) fun _ => true) = true := by decide
theorem test_wit_step_refused : (waiting s0 (.frmCmd [3#8])).inv ∧
    refuses (step (waiting s0 (.frmCmd [3#8]))) (.badRequest .unusedFramerSelector) = true := by decide
theorem test_wit_events : ∀ e ∈ [InEvent.reset, .linkRx 0x31#8, .conRx 0x0A#8, .frmCmd [0#8, 0x50#8, 0#8, 1#8]],
    (nextIs (step (waiting (parAt .payloadNibbleOdd 0x4C#8 1#8 0#8) e)) fun _ => true) = true := by decide
theorem test_wit_commute : ({ lineAt 64 textDataOn with pstate := .payloadNibbleOdd, tag := 0x4C#8, length := 1#8 } : State).inv := by
  decide

/-- Two states after `LIN.CHAR` from reset that differ in every register and byte the spec leaves unspecified. -/
def liveLeft (e : InEvent) : State := { s0 with cursor := 1, buf := [(0, 0x61#8)], inq := [e] }
def liveRight (e : InEvent) : State :=
  { s0 with cursor := 1, buf := [(0, 0x61#8), (1, 0x62#8)], tag := 1#8, length := 2#8, data := 3#8, inq := [e] }
theorem test_wit_same_live (e : InEvent) : SameLive (liveLeft e) (liveRight e) where
  cfg := rfl
  pstate := rfl
  cursor := rfl
  pbuf := rfl
  inq := rfl
  out := rfl
  ret := rfl
  tag := by simp [tagLive, liveLeft, s0, State.reset, State.resetWith]
  length := by simp [lengthLive, liveLeft, s0, State.reset, State.resetWith]
  data := by simp [dataLive, liveLeft, s0, State.reset, State.resetWith]
  buf := by simp [liveLeft, liveRight, Memory.read]
theorem test_wit_unobservable_inv : (liveLeft (.conRx 0x0A#8)).inv ∧ (liveRight (.conRx 0x0A#8)).inv ∧
    (liveLeft (.frmCmd [3#8])).inv ∧ (liveRight (.frmCmd [3#8])).inv :=
  ⟨by decide, by decide, by decide, by decide⟩
theorem test_wit_unobservable_step : (nextIs (step (liveLeft (.conRx 0x0A#8))) fun _ => true) = true ∧
    refuses (step (liveLeft (.frmCmd [3#8]))) (.badRequest .unusedFramerSelector) = true := by decide
theorem test_wit_closed_loop : (∃ d : Byte, Instr.dspLedErrOn 0x11#8 = .dspLedErrOn d ∨ Instr.dspLedErrOn 0x11#8 = .linErrOn) ∧
    (nextIs (exec (.dspLedErrOn 0x11#8) s0) fun _ => true) = true ∧ (nextIs (exec .linDataOff s0) fun _ => true) = true :=
  ⟨⟨0x11#8, .inl rfl⟩, by decide, by decide⟩
theorem test_wit_decode_encode : WellFormed c0 (.parSkip 0x7D#8) = true ∧ WellFormed c0 (.dspLedErrOn 0xFF#8) = true ∧
    WellFormed c0 (.dspSerial 0#8) = true ∧ WellFormed c0 (.linNoMatch []) = true := by decide
theorem test_wit_decoded : c0.ok = true ∧ decode c0 .dsp [0x4C#8, 0xFF#8] = .ok (.dspLedErrOn 0xFF#8) ∧
    decode c0 .linText textErrOn = .ok .linErrOn ∧ (∀ n, Instr.linErrOn ≠ .hexEnc n) := by
  exact ⟨by decide, by decide, by decide, fun n h => by cases h⟩
/-- R91: the row of the operation map, on the words of section 2.5. -/
theorem test_table_rows : tableMnemonic c0 .dsp [0x4C#8, 0xEF#8] = some "DSP.LED.DATA_ON" ∧
    tableMnemonic c0 .par [0x00#8, 0x7B#8] = some "PAR.START" ∧
    tableMnemonic c0 .linText (ascii ['H', 'e', 'l', 'l', 'o', ' ']) = some "LIN.NOMATCH" := by decide
theorem test_wit_step_runs : s0.cfg.ok = true ∧ s0.inq = [] ∧
    decode s0.cfg (selectorOf s0 (.linkRx 0x7B#8)).1 (selectorOf s0 (.linkRx 0x7B#8)).2 = .ok .parStart ∧
    decode s0.cfg (selectorOf s0 (.frmCmd [])).1 (selectorOf s0 (.frmCmd [])).2 = .error .wrongLength ∧
    ({ s0 with cfg := { c0 with payloadCap := 11 } } : State).cfg.ok = false ∧
    ({ s0 with cfg := { c0 with lineCap := 1 } } : State).cfg.ok = false := by decide
theorem test_wit_table_word : decodeTableWord 16 0x4C11 = some (.dspLedErrOn 0x11#8) ∧
    decodeTableWord 16 0x07B = some .parStart ∧ decodeTableWord 0 0 = some .reset := by decide
/-- R91 and R21: the state code 110 of a parser word, and the other formats. -/
theorem test_word_pstate : wordPState 16 0x631 = some .payloadNibbleOdd ∧ wordPState 16 0x07B = some .idle ∧
    wordPState 16 0x4C11 = some .idle ∧ wordPState 8 0x0D = some .idle := by decide
/-- R7: the default tags are pairwise distinct. -/
theorem test_default_tags_distinct : [tagLed, c0.tagSerial, c0.tagGpio, c0.tagButton, c0.tagTemp, c0.tagAccel, c0.tagError,
    c0.tagVersion, c0.tagUiCfg].Nodup := by decide

end Sys2Proof.Tests
end

namespace Sys2Proof.Machine

/-! ### The two refusals of a step itself: a request that names no operation, parameters that break R7 -/

theorem step_of_decode_error {s : State} {e : InEvent} {rest : List InEvent} {r : DecodeError} (hc : s.cfg.ok = true)
    (hq : s.inq = e :: rest) (hd : decode s.cfg (selectorOf s e).1 (selectorOf s e).2 = .error r) :
    step s = .refused (.badRequest r) := by
  simp only [step, hc, if_true, hq, hd]

theorem step_of_badParameters {s : State} (hc : s.cfg.ok = false) : step s = .refused .badParameters := by
  simp [step, hc]

/-- Settles O48: one lemma of the step for each of its four outcomes. -/
theorem stepRunsTheDecodedOperation : Obligations.StepRunsTheDecodedOperation := fun _ =>
  ⟨fun _ _ _ hc hq hd => step_of_decode hc hq hd, fun _ _ _ hc hq hd => step_of_decode_error hc hq hd, step_idle,
    step_of_badParameters⟩

/-! ### No fault

A result that is no fault: sequencing keeps this, so the serializer and the framer have it in every state. Only a write to
the line buffer can fault, and there R27's bound on the cursor excludes it. -/

/-- The result is a next state or a refusal. -/
def NoFault (r : Result) : Prop := ∀ e, r ≠ .fault e

theorem noFault_next (s : State) : NoFault (.next s) := nofun

theorem noFault_refused (e : Refusal) : NoFault (.refused e) := nofun

theorem noFault_of_answers {r : Result} (h : ∃ t, r = .next t) : NoFault r := by
  obtain ⟨t, rfl⟩ := h
  exact noFault_next t

theorem NoFault.andThen {r : Result} {k : State → Result} (hr : NoFault r) (hk : ∀ s, NoFault (k s)) :
    NoFault (andThen r k) := by
  cases r with
  | next s => exact hk s
  | fault e => exact absurd rfl (hr e)
  | refused e => exact noFault_refused e

theorem pbufAppend_noFault (cs : List Byte) (s : State) : NoFault (pbufAppend cs s) := by
  unfold pbufAppend
  split
  · exact noFault_next _
  · exact noFault_refused _

theorem execSerWord_noFault (v : Word16) (s : State) : NoFault (execSerWord v s) :=
  execSerWord_eq v s ▸ pbufAppend_noFault _ s

theorem serItems_noFault (items : List Item) (s : State) : NoFault (serItems items s) := by
  induction items generalizing s with
  | nil => exact noFault_next s
  | cons item rest ih =>
    cases item with
    | byte v => exact (pbufAppend_noFault _ s).andThen ih
    | word v => exact (execSerWord_noFault v s).andThen ih

theorem execFrmSingle_noFault (t : Byte) (items : List Item) (s : State) : NoFault (execFrmSingle t items s) :=
  (serItems_noFault items _).andThen fun _ => noFault_next _

theorem execFrmString_noFault (t : Byte) (str : List Byte) (s : State) : NoFault (execFrmString t str s) :=
  (noFault_of_answers ⟨_, serChars_eq str _⟩).andThen fun _ => noFault_next _

theorem subField_noFault (t : Byte) (items : List Item) (s : State) : NoFault (subField t items s) :=
  (serItems_noFault items _).andThen fun _ => noFault_next _

theorem execFrmAgg_noFault (a : AggOperands) (s : State) : NoFault (execFrmAgg a s) :=
  (subField_noFault _ _ _).andThen fun _ => (subField_noFault _ _ _).andThen fun _ =>
    (subField_noFault _ _ _).andThen fun _ => (subField_noFault _ _ _).andThen fun _ =>
      (subField_noFault _ _ _).andThen fun _ => noFault_next _

/-! ### The operations of port bytes answer a next state -/

theorem exec_decodeTransition_answers (p : PState) (b : Byte) (s : State) :
    ∃ t, exec (decodeTransition p b) s = .next t := by
  cases p with
  | idle =>
    simp only [decodeTransition]
    split
    · exact ⟨_, rfl⟩
    · exact ⟨_, rfl⟩
  | payloadNibbleOdd => exact ⟨_, execParOdd_eq b s⟩
  | _ => exact ⟨_, rfl⟩

/-- The capacity test of R182 terminates at a cursor one higher, which R27's bound keeps inside the buffer. -/
theorem execLinChar_answers (b : Byte) {s : State} (h : s.cursor + 2 ≤ s.cfg.lineCap) :
    ∃ t, execLinChar b s = .next t := by
  have hstore : s.cursor < s.cfg.lineCap := by omega
  have hnext : s.cursor + 1 < s.cfg.lineCap := by omega
  simp only [execLinChar, bufWrite_of_lt hstore, andThen_next]
  split
  · exact ⟨_, terminate_eq _ hnext⟩
  · exact ⟨_, rfl⟩

theorem exec_decodeConsole_answers (b : Byte) {s : State} (h : s.cursor + 2 ≤ s.cfg.lineCap) :
    ∃ t, exec (decodeConsole b) s = .next t := by
  have hterm : ∃ t, terminate s = .next t := ⟨_, terminate_eq s (by omega)⟩
  simp only [decodeConsole]
  split_ifs
  · exact hterm
  · exact hterm
  · exact execLinChar_answers b h

/-- With R27's bound on the cursor no operation faults. -/
theorem exec_noFault (i : Instr) {s : State} (h : s.cursor + 2 ≤ s.cfg.lineCap) : NoFault (exec i s) := by
  have hterm : NoFault (terminate s) := noFault_of_answers ⟨_, terminate_eq s (by omega)⟩
  cases i with
  | serByte v => exact pbufAppend_noFault _ s
  | serWord v => exact execSerWord_noFault v s
  | frmSingle t items => exact execFrmSingle_noFault t items s
  | frmString t str => exact execFrmString_noFault t str s
  | frmAgg a => exact execFrmAgg_noFault a s
  | parOdd b => exact noFault_of_answers ⟨_, execParOdd_eq b s⟩
  | linTermCr => exact hterm
  | linTermLf => exact hterm
  | linChar b => exact noFault_of_answers (execLinChar_answers b h)
  | _ => exact noFault_next _

/-! ### The step under the invariant -/

theorem step_noFault {s : State} (hc : s.cfg.ok = true) (h : s.cursor + 2 ≤ s.cfg.lineCap) : NoFault (step s) := by
  cases hq : s.inq with
  | nil => exact noFault_of_answers ⟨s, step_idle hc hq⟩
  | cons e rest =>
    cases hd : decode s.cfg (selectorOf s e).1 (selectorOf s e).2 with
    | error r => exact step_of_decode_error hc hq hd ▸ noFault_refused _
    | ok i => exact step_of_decode hc hq hd ▸ exec_noFault i (s := s.setInq rest) h

/-- Every event but a request, which is a framer command or a function call, has a step. -/
theorem step_answers_or_request {s : State} {e : InEvent} {rest : List InEvent} (hc : s.cfg.ok = true)
    (h : s.cursor + 2 ≤ s.cfg.lineCap) (hq : s.inq = e :: rest) :
    (∃ t, step s = .next t) ∨ ∃ request, e = .frmCmd request ∨ e = .funcCall request := by
  cases e with
  | reset => exact .inl ⟨_, step_reset hc hq⟩
  | linkRx b => exact .inl (step_linkRx hc hq ▸ exec_decodeTransition_answers s.pstate b _)
  | conRx b => exact .inl (step_conRx hc hq ▸ exec_decodeConsole_answers b (s := s.setInq rest) h)
  | dspCall t d =>
    exact .inl ⟨_, (step_dspCall hc hq).trans ((exec_decodeDispatch t d (s.setInq rest)).trans (dspRun_eq t d _))⟩
  | lineCall text => exact .inl ⟨_, (step_lineCall hc hq).trans ((exec_decodeText text _).trans (classify_eq text _))⟩
  | frmCmd request => exact .inr ⟨request, .inl rfl⟩
  | funcCall request => exact .inr ⟨request, .inr rfl⟩

/-- Settles O38: the invariant gives admitted parameters and R27's bound on the cursor, which is all that is needed. -/
theorem stepNeverFaults : Obligations.StepNeverFaults := by
  intro s hinv
  obtain ⟨hc, -, ⟨hcur, -⟩, -⟩ := hinv
  refine ⟨step_noFault hc hcur, ?_, ?_⟩
  · intro e rest hq hport
    obtain hnext | ⟨request, rfl | rfl⟩ := step_answers_or_request hc hcur hq
    · exact hnext
    · simp at hport
    · simp at hport
  · intro r hr
    cases hq : s.inq with
    | nil => exact absurd (hr.symm.trans (step_idle hc hq)) nofun
    | cons e rest =>
      obtain ⟨t, ht⟩ | ⟨request, rfl | rfl⟩ := step_answers_or_request hc hcur hq
      · exact absurd (hr.symm.trans ht) nofun
      · exact ⟨request, rest, .inl rfl⟩
      · exact ⟨request, rest, .inr rfl⟩

end Sys2Proof.Machine

namespace Sys2Proof.Machine

/-! ### What selection says of an operation

A parser transition is selected by its own parser state, `LIN.CHAR` by a byte that is no terminator (R90); of every other
operation the proofs below need nothing. -/

/-- What R90's selecting conditions say of the parser state and of a character. -/
def SelectedIn (p : PState) : Instr → Prop
  | .parStart | .parSkip _ => p = .idle
  | .parSeq _ => p = .sequenceNumber
  | .parTag _ => p = .packetId
  | .parLenHi _ => p = .payloadSizeHigh
  | .parLenLo _ => p = .payloadSizeLow
  | .parEven _ => p = .payloadNibbleEven
  | .parOdd _ => p = .payloadNibbleOdd
  | .linChar b => b ≠ crByte ∧ b ≠ lfByte
  | _ => True

theorem eq_ok_of_bind_eq_ok {α : Type} {x : Except DecodeError α} {f : α → Except DecodeError Instr} {i : Instr}
    (h : (x >>= f) = .ok i) : ∃ a, f a = .ok i := by
  cases x with
  | error e => cases h
  | ok a => exact ⟨a, h⟩

theorem decodeTransition_selectedIn (p : PState) (b : Byte) : SelectedIn p (decodeTransition p b) := by
  cases p with
  | idle =>
    simp only [decodeTransition]
    split
    · rfl
    · rfl
  | _ => rfl

theorem decodeConsole_selectedIn (p : PState) (b : Byte) : SelectedIn p (decodeConsole b) := by
  simp only [decodeConsole]
  split_ifs with hcr hlf
  · trivial
  · trivial
  · exact ⟨hcr, hlf⟩

theorem decodeDispatch_selectedIn (p : PState) (c : Config) (t d : Byte) : SelectedIn p (decodeDispatch c t d) := by
  simp only [decodeDispatch]
  split_ifs <;> trivial

theorem decodeText_selectedIn (p : PState) (text : List Byte) : SelectedIn p (decodeText text) := by
  simp only [decodeText]
  split_ifs <;> trivial

theorem decodeAgg_selectedIn (p : PState) {bytes : List Byte} {i : Instr} (h : decodeAgg bytes = .ok i) :
    SelectedIn p i := by
  unfold decodeAgg at h
  split at h
  · obtain ⟨btn, h⟩ := eq_ok_of_bind_eq_ok h
    obtain ⟨conn, h⟩ := eq_ok_of_bind_eq_ok h
    obtain ⟨eled, h⟩ := eq_ok_of_bind_eq_ok h
    obtain ⟨dled, h⟩ := eq_ok_of_bind_eq_ok h
    obtain ⟨gpio1, h⟩ := eq_ok_of_bind_eq_ok h
    obtain ⟨gpio2, h⟩ := eq_ok_of_bind_eq_ok h
    cases h
    trivial
  · cases h

theorem decodeFrm_selectedIn (p : PState) {bytes : List Byte} {i : Instr} (h : decodeFrm bytes = .ok i) :
    SelectedIn p i := by
  unfold decodeFrm at h
  split at h
  · cases h
  · split at h
    · split at h
      · cases h
      · split at h
        · cases h; trivial
        · cases h
    · split at h
      · cases h
      · cases h; trivial
    · exact decodeAgg_selectedIn p h
    · cases h
    · cases h

theorem decodeFunc_selectedIn (p : PState) {bytes : List Byte} {i : Instr} (h : decodeFunc bytes = .ok i) :
    SelectedIn p i := by
  unfold decodeFunc at h
  split at h
  · cases h
  · split at h
    case h_6 =>
      split at h
      · obtain ⟨btn, h⟩ := eq_ok_of_bind_eq_ok h
        cases h; trivial
      · cases h
    case h_7 =>
      split at h
      · obtain ⟨conn, h⟩ := eq_ok_of_bind_eq_ok h
        obtain ⟨eled, h⟩ := eq_ok_of_bind_eq_ok h
        obtain ⟨dled, h⟩ := eq_ok_of_bind_eq_ok h
        cases h; trivial
      · cases h
    case h_8 =>
      split at h
      · obtain ⟨gpio1, h⟩ := eq_ok_of_bind_eq_ok h
        obtain ⟨gpio2, h⟩ := eq_ok_of_bind_eq_ok h
        cases h; trivial
      · cases h
    case h_10 => cases h
    all_goals
      split at h
      · cases h; trivial
      · cases h

/-- The operation an event selects meets its selecting conditions in the state the event is handled in. -/
theorem decode_selectorOf_selectedIn {s : State} {e : InEvent} {i : Instr}
    (h : decode s.cfg (selectorOf s e).1 (selectorOf s e).2 = .ok i) : SelectedIn s.pstate i := by
  cases e with
  | reset => cases h; trivial
  | linkRx b => cases (decodePar_code s.pstate b).symm.trans h; exact decodeTransition_selectedIn s.pstate b
  | conRx b => cases h; exact decodeConsole_selectedIn s.pstate b
  | frmCmd request => exact decodeFrm_selectedIn s.pstate h
  | dspCall t d => cases h; exact decodeDispatch_selectedIn s.pstate s.cfg t d
  | lineCall text => cases h; exact decodeText_selectedIn s.pstate text
  | funcCall request => exact decodeFunc_selectedIn s.pstate h

/-! ### `LIN.CHAR` by the capacity test (R182) -/

/-- The state with a character stored at the cursor and the cursor advanced. -/
def storeChar (b : Byte) (s : State) : State := (s.setBuf (s.buf.write s.cursor b)).setCursor (s.cursor + 1)

/-- Below the last place the character is stored. -/
theorem execLinChar_of_below {b : Byte} {s : State} (h : s.cursor + 2 < s.cfg.lineCap) :
    execLinChar b s = .next (storeChar b s) := by
  have hstore : s.cursor < s.cfg.lineCap := by omega
  have hnot : s.cursor + 1 ≠ s.cfg.lineCap - 1 := by omega
  simp [execLinChar, bufWrite_of_lt hstore, hnot, storeChar]

/-- At the last place the character is stored and the line terminated. -/
theorem execLinChar_of_last {b : Byte} {s : State} (h : s.cursor + 2 = s.cfg.lineCap) :
    execLinChar b s = terminate (storeChar b s) := by
  have hstore : s.cursor < s.cfg.lineCap := by omega
  have hlast : s.cursor + 1 = s.cfg.lineCap - 1 := by omega
  simp [execLinChar, bufWrite_of_lt hstore, hlast, storeChar]

/-! ### Results whose next state meets the invariant

As with `NoFault`, sequencing keeps the property, so the serializer and the framer have it by their parts. -/

/-- A next state, if there is one, meets the invariant. -/
def NextInv (r : Result) : Prop := ∀ t, r = .next t → t.inv

theorem nextInv_next {s : State} (h : s.inv) : NextInv (.next s) := by
  rintro t ⟨⟩
  exact h

theorem nextInv_refused (e : Refusal) : NextInv (.refused e) := nofun

theorem NextInv.andThen {r : Result} {k : State → Result} (hr : NextInv r) (hk : ∀ s, s.inv → NextInv (k s)) :
    NextInv (andThen r k) := by
  intro t ht
  obtain ⟨s, hs, hkt⟩ := andThen_eq_next.mp ht
  exact hk s (hr s hs) t hkt

/-! ### What the invariant gives -/

theorem cfg_ok_of_inv {s : State} (h : s.inv) : s.cfg.ok = true := by
  obtain ⟨hok, -⟩ := h
  exact hok

/-- R27's bound: a character and a NUL still fit. -/
theorem cursor_le_of_inv {s : State} (h : s.inv) : s.cursor + 2 ≤ s.cfg.lineCap := by
  obtain ⟨-, -, ⟨hcur, -⟩, -⟩ := h
  exact hcur

theorem buf_wf_of_inv {s : State} (h : s.inv) : s.buf.wf = true := by
  obtain ⟨-, -, ⟨-, hwf, -⟩, -⟩ := h
  exact hwf

theorem pbuf_even_of_inv {s : State} (h : s.inv) : s.pbuf.length % 2 = 0 := by
  obtain ⟨-, -, -, -, heven⟩ := h
  exact heven

/-! ### The invariant under the state's operations -/

theorem inv_setInq {s : State} (h : s.inv) (es : List InEvent) : (s.setInq es).inv := h

theorem inv_setRet {s : State} (h : s.inv) (r : Ret) : (s.setRet r).inv := h

theorem inv_emitAll {s : State} (h : s.inv) (es : List OutEvent) : (s.emitAll es).inv := h

/-- The payload buffer may hold any even number of characters within its capacity (R29, R58). -/
theorem inv_setPbuf {s : State} (h : s.inv) {cs : List Byte} (hcap : cs.length ≤ s.cfg.payloadCap)
    (heven : cs.length % 2 = 0) : (s.setPbuf cs).inv := by
  obtain ⟨hok, hpar, hline, -⟩ := h
  exact ⟨hok, hpar, hline, hcap, heven⟩

theorem inv_setPbuf_nil {s : State} (h : s.inv) : (s.setPbuf []).inv := inv_setPbuf h (Nat.zero_le _) rfl

/-- The parser's registers may hold anything that meets the parser's own invariant. -/
theorem inv_setParser {s : State} (h : s.inv) (p : PState) (t l d : Byte)
    (hpar : State.parserInv { s with pstate := p, tag := t, length := l, data := d }) :
    State.inv { s with pstate := p, tag := t, length := l, data := d } := by
  obtain ⟨hok, -, hline, hpbuf⟩ := h
  exact ⟨hok, hpar, hline, hpbuf⟩

theorem inv_setCursor_zero {s : State} (h : s.inv) : (s.setCursor 0).inv := by
  obtain ⟨hok, hpar, ⟨hcur, hwf, hbound, -⟩, hpbuf⟩ := h
  exact ⟨hok, hpar, ⟨by simp; omega, hwf, hbound, by simp⟩, hpbuf⟩

theorem inv_resetLine {s : State} (h : s.inv) : ((s.setBuf []).setCursor 0).inv := by
  obtain ⟨hok, hpar, ⟨hcur, -⟩, hpbuf⟩ := h
  exact ⟨hok, hpar, ⟨by simp; omega, rfl, rfl, by simp⟩, hpbuf⟩

/-- Storing a character and advancing keeps the invariant below the last place (R27), no terminator being stored (R181). -/
theorem inv_storeChar {s : State} (h : s.inv) {b : Byte} (hb : b ≠ crByte ∧ b ≠ lfByte)
    (hcap : s.cursor + 2 < s.cfg.lineCap) : (storeChar b s).inv := by
  obtain ⟨hok, hpar, ⟨-, hwf, hbound, hterm⟩, hpbuf⟩ := h
  have hcur : s.cursor < s.cfg.lineCap := by omega
  refine ⟨hok, hpar, ⟨hcap, s.buf.write_wf _ b hwf, s.buf.write_bounded _ _ b hwf hcur hbound, ?_⟩, hpbuf⟩
  intro i hi
  simp only [storeChar, State.setCursor_cursor] at hi
  simp only [storeChar, State.setCursor_buf, State.setBuf_buf, Memory.read_write _ _ _ _ hwf]
  split
  · exact hb
  · exact hterm i (by omega)

/-- A byte written inside the buffer keeps the invariant of an empty line. -/
theorem inv_setBuf_write {s : State} (h : (s.setCursor 0).inv) {i : Nat} (hi : i < s.cfg.lineCap) (b : Byte) :
    ((s.setBuf (s.buf.write i b)).setCursor 0).inv := by
  obtain ⟨hok, hpar, ⟨hcap, hwf, hbound, -⟩, hpbuf⟩ := h
  exact ⟨hok, hpar, ⟨hcap, s.buf.write_wf i b hwf, s.buf.write_bounded i _ b hwf hi hbound, by simp⟩, hpbuf⟩

/-! ### The operations keep the invariant: serializer and framer -/

theorem pbufAppend_nextInv {s : State} (h : s.inv) {cs : List Byte} (heven : cs.length % 2 = 0) :
    NextInv (pbufAppend cs s) := by
  have hpbuf := pbuf_even_of_inv h
  unfold pbufAppend
  split
  · next hcap =>
    exact nextInv_next (inv_setPbuf h (by simpa using hcap) (by rw [List.length_append]; omega))
  · exact nextInv_refused _

theorem execSerByte_nextInv {s : State} (h : s.inv) (v : Byte) : NextInv (execSerByte v s) :=
  pbufAppend_nextInv h (congrArg (· % 2) (hexOfByte_length v))

theorem execSerWord_nextInv {s : State} (h : s.inv) (v : Word16) : NextInv (execSerWord v s) :=
  (execSerByte_nextInv h (loByte v)).andThen fun _ hu => execSerByte_nextInv hu (hiByte v)

theorem serItems_nextInv {s : State} (h : s.inv) (items : List Item) : NextInv (serItems items s) := by
  induction items generalizing s with
  | nil => exact nextInv_next h
  | cons item rest ih =>
    cases item with
    | byte v => exact (execSerByte_nextInv h v).andThen fun _ hu => ih hu
    | word v => exact (execSerWord_nextInv h v).andThen fun _ hu => ih hu

theorem execFrmSingle_nextInv {s : State} (h : s.inv) (t : Byte) (items : List Item) :
    NextInv (execFrmSingle t items s) :=
  (serItems_nextInv (inv_setPbuf_nil h) items).andThen fun _ hu =>
    nextInv_next (inv_setPbuf_nil (inv_emitAll (inv_emitAll (inv_emitAll hu _) _) _))

theorem execFrmString_nextInv {s : State} (h : s.inv) (t : Byte) (str : List Byte) :
    NextInv (execFrmString t str s) := by
  have hchars : NextInv (serChars str ((s.setPbuf []).emitLink [startByte, t, sepSingle])) :=
    serChars_eq str _ ▸ nextInv_next (inv_emitAll (inv_emitAll (inv_setPbuf_nil h) _) _)
  exact hchars.andThen fun _ hu => nextInv_next (inv_emitAll hu _)

theorem subField_nextInv {s : State} (h : s.inv) (t : Byte) (items : List Item) : NextInv (subField t items s) :=
  (serItems_nextInv (inv_setPbuf_nil h) items).andThen fun _ hu =>
    nextInv_next (inv_emitAll (inv_emitAll (inv_emitAll hu _) _) _)

theorem execFrmAgg_nextInv {s : State} (h : s.inv) (a : AggOperands) : NextInv (execFrmAgg a s) :=
  (subField_nextInv (inv_emitAll h _) _ _).andThen fun _ h => (subField_nextInv h _ _).andThen fun _ h =>
    (subField_nextInv h _ _).andThen fun _ h => (subField_nextInv h _ _).andThen fun _ h =>
      (subField_nextInv h _ _).andThen fun _ h => nextInv_next (inv_setPbuf_nil (inv_emitAll h _))

/-! ### The operations keep the invariant: line session -/

theorem terminate_nextInv {s : State} (h : (s.setCursor 0).inv) (hcur : s.cursor < s.cfg.lineCap) :
    NextInv (terminate s) :=
  terminate_eq s hcur ▸ nextInv_next (inv_emitAll (inv_setBuf_write h hcur nulByte) _)

theorem execLinChar_nextInv {s : State} (h : s.inv) {b : Byte} (hb : b ≠ crByte ∧ b ≠ lfByte) :
    NextInv (execLinChar b s) := by
  obtain hlast | hbelow := (cursor_le_of_inv h).eq_or_lt
  · rw [execLinChar_of_last hlast]
    exact terminate_nextInv (inv_setBuf_write (inv_setCursor_zero h) (show s.cursor < s.cfg.lineCap by omega) b)
      (show s.cursor + 1 < s.cfg.lineCap by omega)
  · rw [execLinChar_of_below hbelow]
    exact nextInv_next (inv_storeChar h hb hbelow)

/-! ### The operations keep the invariant: parser -/

theorem dec_setWidth_lt (b : Byte) : ((dec b).setWidth 8).toNat < 16 := by
  rw [BitVec.toNat_setWidth]
  omega

/-- Counting a nibble on the even side leaves no bound to keep. -/
theorem inv_countNibble_even {s : State} (h : s.inv) (d : Byte) (es : List OutEvent) :
    (countNibble .payloadNibbleEven ((s.setData d).emitAll es)).inv := by
  refine inv_setParser (inv_emitAll h es) _ s.tag _ d ?_
  split
  · exact ⟨nofun, nofun⟩
  · exact ⟨nofun, nofun⟩

/-- Counting a nibble on the odd side: the state is kept at a length that is not zero only (R155). -/
theorem inv_countNibble_odd {s : State} (h : s.inv) {d : Byte} (hd : d.toNat < 16) :
    (countNibble .payloadNibbleOdd (s.setData d)).inv := by
  refine inv_setParser h _ s.tag _ d ?_
  split
  · exact ⟨nofun, nofun⟩
  · next hlen =>
    have hpos : (s.length - 1#8).toNat ≠ 0 := fun h0 => hlen (BitVec.eq_of_toNat_eq h0)
    exact ⟨fun _ => ⟨Nat.pos_of_ne_zero hpos, hd⟩, nofun⟩

theorem execParOdd_nextInv {s : State} (h : s.inv) (b : Byte) : NextInv (execParOdd b s) := by
  rw [execParOdd_eq]
  exact nextInv_next (inv_countNibble_even h (shiftIn s.data b) _)

/-! ### Every step keeps the invariant -/

theorem exec_nextInv {s : State} (h : s.inv) {i : Instr} (hi : SelectedIn s.pstate i) : NextInv (exec i s) := by
  have hcur := cursor_le_of_inv h
  cases i with
  | hexEnc | hexDec | valButton | valLed | valGpio | valAxis => exact nextInv_next (inv_setRet h _)
  | serByte v => exact execSerByte_nextInv h v
  | serWord v => exact execSerWord_nextInv h v
  | serChar ch => exact nextInv_next (inv_emitAll h _)
  | frmSingle t items => exact execFrmSingle_nextInv h t items
  | frmString t str => exact execFrmString_nextInv h t str
  | frmAgg a => exact execFrmAgg_nextInv h a
  | parStart => exact nextInv_next (inv_setParser h .sequenceNumber s.tag s.length s.data ⟨nofun, nofun⟩)
  | parSkip b => exact nextInv_next (inv_setParser h .idle s.tag s.length s.data ⟨nofun, nofun⟩)
  | parSeq b => exact nextInv_next (inv_setParser h .packetId s.tag s.length s.data ⟨nofun, nofun⟩)
  | parTag b => exact nextInv_next (inv_setParser h .payloadSizeHigh b s.length s.data ⟨nofun, nofun⟩)
  | parLenHi b =>
    exact nextInv_next (inv_setParser h .payloadSizeLow s.tag _ s.data ⟨nofun, fun _ => dec_setWidth_lt b⟩)
  | parLenLo b => exact nextInv_next (inv_setParser h .payloadNibbleEven s.tag _ s.data ⟨nofun, nofun⟩)
  | parEven b => exact nextInv_next (inv_countNibble_odd h (dec_setWidth_lt b))
  | parOdd b => exact execParOdd_nextInv h b
  | dspLedDataOff | dspLedDataOn | dspLedErrOff | dspLedErrOn | dspSerial => exact nextInv_next (inv_emitAll h _)
  | linHello | linDataOff | linDataOn | linErrOff | linErrOn => exact nextInv_next (inv_emitAll h _)
  | dspNop | linNoMatch => exact nextInv_next h
  | linTermCr | linTermLf => exact terminate_nextInv (inv_setCursor_zero h) (by omega)
  | linChar b => exact execLinChar_nextInv h hi
  | reset => exact nextInv_next (inv_setParser (inv_setPbuf_nil (inv_resetLine h)) .idle 0 0 0 ⟨nofun, nofun⟩)

theorem step_nextInv {s : State} (h : s.inv) : NextInv (step s) := by
  intro t ht
  obtain ⟨-, ⟨-, rfl⟩ | ⟨e, rest, i, -, hd, hexec⟩⟩ := step_eq_next ht
  · exact h
  · exact exec_nextInv (inv_setInq h rest) (decode_selectorOf_selectedIn hd) t hexec

/-- Settles O37: the operation a step runs meets its selecting conditions, and under them every operation keeps the
invariant. -/
theorem stepKeepsTheInvariant : Obligations.StepKeepsTheInvariant := fun _ t h ht => step_nextInv h t ht

/-! ### Results that agree on everything the spec specifies -/

/-- Two results that are both a next state, related by `SameLive`, or both the same refusal. Under the invariant no
operation faults, so there is no pair of faults. -/
inductive Agree : Result → Result → Prop
  | next {s t : State} (h : SameLive s t) : Agree (.next s) (.next t)
  | refused (e : Refusal) : Agree (.refused e) (.refused e)

theorem Agree.andThen {r q : Result} {k : State → Result} (hr : Agree r q)
    (hk : ∀ s t, SameLive s t → Agree (k s) (k t)) : Agree (andThen r k) (andThen q k) := by
  cases hr with
  | next h => exact hk _ _ h
  | refused e => exact .refused e

namespace SameLive

variable {s t : State}

/-! ### The relation under the state's operations -/

theorem setInq (h : SameLive s t) (es : List InEvent) : SameLive (s.setInq es) (t.setInq es) := { h with inq := rfl }

theorem setRet (h : SameLive s t) (r : Ret) : SameLive (s.setRet r) (t.setRet r) := { h with ret := rfl }

theorem setPbuf (h : SameLive s t) (cs : List Byte) : SameLive (s.setPbuf cs) (t.setPbuf cs) := { h with pbuf := rfl }

theorem emitAll (h : SameLive s t) (es : List OutEvent) : SameLive (s.emitAll es) (t.emitAll es) :=
  { h with out := congrArg (· ++ es) h.out }

theorem setData (h : SameLive s t) (v : Byte) : SameLive (s.setData v) (t.setData v) := { h with data := fun _ => rfl }

/-- The parser's registers may become anything, as long as they are the same where the new parser state still reads them
(R25). -/
theorem setParser (h : SameLive s t) (p : PState) {tag tag' length length' data data' : Byte}
    (htag : tagLive p = true → tag = tag') (hlength : lengthLive p = true → length = length')
    (hdata : dataLive p = true → data = data') :
    SameLive { s with pstate := p, tag := tag, length := length, data := data }
      { t with pstate := p, tag := tag', length := length', data := data' } :=
  { h with pstate := rfl, tag := htag, length := hlength, data := hdata }

/-- A parser state that reads no register yet (R25). -/
theorem setPstate_of_not_tagLive (h : SameLive s t) {p : PState} (hp : tagLive p = false) :
    SameLive (s.setPstate p) (t.setPstate p) := by
  cases p with
  | idle | sequenceNumber | packetId => exact h.setParser _ nofun nofun nofun
  | _ => exact absurd hp (by decide)

theorem countNibble (h : SameLive s t) (p : PState) (htag : s.tag = t.tag) (hlength : s.length = t.length)
    (hdata : s.data = t.data) : SameLive (countNibble p s) (countNibble p t) := by
  simp only [Machine.countNibble, hlength]
  exact h.setParser _ (fun _ => htag) (fun _ => rfl) fun _ => hdata

theorem selectorOf_eq (h : SameLive s t) (e : InEvent) : selectorOf s e = selectorOf t e := by
  cases e with
  | linkRx b => simp only [selectorOf, h.pstate]
  | _ => rfl

/-! ### The relation under the line buffer -/

/-- Below the cursor and at it, the buffers read the same once the same byte is written at it. -/
theorem read_write (h : SameLive s t) (hs : s.buf.wf = true) (ht : t.buf.wf = true) (b : Byte) {i : Nat}
    (hi : i ≤ s.cursor) : (s.buf.write s.cursor b).read i = (t.buf.write t.cursor b).read i := by
  rw [Memory.read_write _ _ _ _ hs, Memory.read_write _ _ _ _ ht, ← h.cursor]
  split
  · rfl
  · exact h.buf i (by omega)

theorem storeChar (h : SameLive s t) (hs : s.buf.wf = true) (ht : t.buf.wf = true) (b : Byte) :
    SameLive (storeChar b s) (storeChar b t) :=
  { h with
    cursor := congrArg (· + 1) h.cursor
    buf := fun _ hi => h.read_write hs ht b (Nat.le_of_lt_succ hi) }

/-- The cursor back at 0, no byte of the buffer is read again before it is written (R28). -/
theorem restartLine (h : SameLive s t) (m m' : Memory) :
    SameLive ((s.setBuf m).setCursor 0) ((t.setBuf m').setCursor 0) :=
  { h with cursor := rfl, buf := nofun }

end SameLive

/-- The line text reads no byte above a NUL (R184). -/
theorem lineText_congr {s t : State} {n : Nat} (hcap : s.cfg.lineCap = t.cfg.lineCap) (hn : n < s.cfg.lineCap)
    (hnul : s.buf.read n = nulByte) (hread : ∀ i, i ≤ n → s.buf.read i = t.buf.read i) : lineText s = lineText t := by
  have hex : ∃ i, s.buf.read i = nulByte := ⟨n, hnul⟩
  have hle : Nat.find hex ≤ n := Nat.find_min' hex hnul
  have hbelow : ∀ i, i < Nat.find hex → s.buf.read i ≠ nulByte := fun i hi => Nat.find_min hex hi
  rw [lineText_of_nul s (Nat.find hex) (by omega) (Nat.find_spec hex) hbelow,
    lineText_of_nul t (Nat.find hex) (by omega) (hread _ hle ▸ Nat.find_spec hex)
      fun i hi => hread i (by omega) ▸ hbelow i hi]
  exact List.map_congr_left fun i hi => hread i ((List.mem_range.mp hi).le.trans hle)

/-! ### The operations agree: serializer and framer -/

theorem pbufAppend_agree {s t : State} (h : SameLive s t) (cs : List Byte) :
    Agree (pbufAppend cs s) (pbufAppend cs t) := by
  have hroom : s.plen + cs.length ≤ s.cfg.payloadCap ↔ t.plen + cs.length ≤ t.cfg.payloadCap := by
    simp only [State.plen_eq, h.pbuf, h.cfg]
  by_cases hle : s.plen + cs.length ≤ s.cfg.payloadCap
  · rw [pbufAppend_of_le hle, pbufAppend_of_le (hroom.mp hle), h.pbuf]
    exact .next (h.setPbuf _)
  · rw [pbufAppend_of_gt (not_le.mp hle), pbufAppend_of_gt (not_le.mp (mt hroom.mpr hle))]
    exact .refused _

theorem execSerWord_agree {s t : State} (h : SameLive s t) (v : Word16) : Agree (execSerWord v s) (execSerWord v t) :=
  (pbufAppend_agree h _).andThen fun _ _ hu => pbufAppend_agree hu _

theorem serItems_agree {s t : State} (h : SameLive s t) (items : List Item) :
    Agree (serItems items s) (serItems items t) := by
  induction items generalizing s t with
  | nil => exact .next h
  | cons item rest ih =>
    cases item with
    | byte v => exact (pbufAppend_agree h _).andThen fun _ _ hu => ih hu
    | word v => exact (execSerWord_agree h v).andThen fun _ _ hu => ih hu

theorem execFrmSingle_agree {s t : State} (h : SameLive s t) (tag : Byte) (items : List Item) :
    Agree (execFrmSingle tag items s) (execFrmSingle tag items t) := by
  refine (serItems_agree (h.setPbuf []) items).andThen fun u w hu => ?_
  rw [hu.pbuf]
  exact .next ((((hu.emitAll _).emitAll _).emitAll _).setPbuf [])

theorem execFrmString_agree {s t : State} (h : SameLive s t) (tag : Byte) (str : List Byte) :
    Agree (execFrmString tag str s) (execFrmString tag str t) := by
  simp only [execFrmString, serChars_eq, andThen_next]
  exact .next ((((h.setPbuf []).emitAll _).emitAll _).emitAll _)

theorem subField_agree {s t : State} (h : SameLive s t) {tag tag' : Byte} (htag : tag = tag') (items : List Item) :
    Agree (subField tag items s) (subField tag' items t) := by
  subst htag
  refine (serItems_agree (h.setPbuf []) items).andThen fun u w hu => ?_
  rw [hu.pbuf]
  exact .next (((hu.emitAll _).emitAll _).emitAll _)

theorem execFrmAgg_agree {s t : State} (h : SameLive s t) (a : AggOperands) : Agree (execFrmAgg a s) (execFrmAgg a t) :=
  (subField_agree (h.emitAll _) (congrArg Config.tagButton h.cfg) _).andThen fun _ _ h =>
    (subField_agree h rfl _).andThen fun _ _ h =>
      (subField_agree h (congrArg Config.tagGpio h.cfg) _).andThen fun _ _ h =>
        (subField_agree h (congrArg Config.tagTemp h.cfg) _).andThen fun _ _ h =>
          (subField_agree h (congrArg Config.tagAccel h.cfg) _).andThen fun _ _ h =>
            .next ((h.emitAll _).setPbuf [])

/-! ### The operations agree: line session -/

theorem terminate_agree {s t : State} (h : SameLive s t) (hs : s.buf.wf = true) (ht : t.buf.wf = true)
    (hcur : s.cursor < s.cfg.lineCap) : Agree (terminate s) (terminate t) := by
  have hcur' : t.cursor < t.cfg.lineCap := by rwa [← h.cursor, ← h.cfg]
  have hnul : (s.buf.write s.cursor nulByte).read s.cursor = nulByte := by simp [Memory.read_write _ _ _ _ hs]
  have htext : lineText (s.setBuf (s.buf.write s.cursor nulByte)) = lineText (t.setBuf (t.buf.write t.cursor nulByte)) :=
    lineText_congr (congrArg Config.lineCap h.cfg) hcur hnul fun _ hi => h.read_write hs ht nulByte hi
  rw [terminate_eq s hcur, terminate_eq t hcur', htext]
  exact .next ((h.restartLine _ _).emitAll _)

theorem execLinChar_agree {s t : State} (h : SameLive s t) (hs : s.buf.wf = true) (ht : t.buf.wf = true)
    (hcur : s.cursor + 2 ≤ s.cfg.lineCap) (b : Byte) : Agree (execLinChar b s) (execLinChar b t) := by
  have hstored := h.storeChar hs ht b
  obtain hlast | hbelow := hcur.eq_or_lt
  · have hlast' : t.cursor + 2 = t.cfg.lineCap := by rwa [← h.cursor, ← h.cfg]
    rw [execLinChar_of_last hlast, execLinChar_of_last hlast']
    exact terminate_agree hstored (Memory.write_wf _ _ _ hs) (Memory.write_wf _ _ _ ht)
      (show s.cursor + 1 < s.cfg.lineCap by omega)
  · have hbelow' : t.cursor + 2 < t.cfg.lineCap := by rwa [← h.cursor, ← h.cfg]
    rw [execLinChar_of_below hbelow, execLinChar_of_below hbelow']
    exact .next hstored

/-! ### The operations agree: parser

In the parser state that selects a transition, the registers it reads are live. -/

theorem execParLenHi_agree {s t : State} (h : SameLive s t) (hp : s.pstate = .payloadSizeHigh) (b : Byte) :
    Agree (execParLenHi b s) (execParLenHi b t) :=
  .next (h.setParser .payloadSizeLow (fun _ => h.tag (hp ▸ rfl)) (fun _ => rfl) nofun)

theorem execParLenLo_agree {s t : State} (h : SameLive s t) (hp : s.pstate = .payloadSizeLow) (b : Byte) :
    Agree (execParLenLo b s) (execParLenLo b t) :=
  .next (h.setParser .payloadNibbleEven (fun _ => h.tag (hp ▸ rfl))
    (fun _ => congrArg (shiftIn · b) (h.length (hp ▸ rfl))) nofun)

theorem execParEven_agree {s t : State} (h : SameLive s t) (hp : s.pstate = .payloadNibbleEven) (b : Byte) :
    Agree (execParEven b s) (execParEven b t) :=
  .next ((h.setData _).countNibble _ (h.tag (hp ▸ rfl)) (h.length (hp ▸ rfl)) rfl)

theorem execParOdd_agree {s t : State} (h : SameLive s t) (hp : s.pstate = .payloadNibbleOdd) (b : Byte) :
    Agree (execParOdd b s) (execParOdd b t) := by
  have htag : s.tag = t.tag := h.tag (hp ▸ rfl)
  have hdata : s.data = t.data := h.data (hp ▸ rfl)
  rw [execParOdd_eq, execParOdd_eq, htag, hdata, h.cfg]
  exact .next (((h.setData _).emitAll _).countNibble _ htag (h.length (hp ▸ rfl)) rfl)

/-! ### Every step agrees -/

theorem exec_agree {s t : State} (h : SameLive s t) (hs : s.inv) (ht : t.inv) {i : Instr}
    (hi : SelectedIn s.pstate i) : Agree (exec i s) (exec i t) := by
  have hcur := cursor_le_of_inv hs
  have hwf := buf_wf_of_inv hs
  have hwf' := buf_wf_of_inv ht
  cases i with
  | hexEnc | hexDec | valButton | valLed | valGpio | valAxis => exact .next (h.setRet _)
  | serByte v => exact pbufAppend_agree h _
  | serWord v => exact execSerWord_agree h v
  | serChar ch => exact .next (h.emitAll _)
  | frmSingle tag items => exact execFrmSingle_agree h tag items
  | frmString tag str => exact execFrmString_agree h tag str
  | frmAgg a => exact execFrmAgg_agree h a
  | parStart | parSkip | parSeq => exact .next (h.setPstate_of_not_tagLive rfl)
  | parTag b => exact .next (h.setParser .payloadSizeHigh (fun _ => rfl) nofun nofun)
  | parLenHi b => exact execParLenHi_agree h hi b
  | parLenLo b => exact execParLenLo_agree h hi b
  | parEven b => exact execParEven_agree h hi b
  | parOdd b => exact execParOdd_agree h hi b
  | dspLedDataOff | dspLedDataOn | dspLedErrOff | dspLedErrOn | dspSerial => exact .next (h.emitAll _)
  | linHello | linDataOff | linDataOn | linErrOff | linErrOn => exact .next (h.emitAll _)
  | dspNop | linNoMatch => exact .next h
  | linTermCr | linTermLf => exact terminate_agree h hwf hwf' (by omega)
  | linChar b => exact execLinChar_agree h hwf hwf' hcur b
  | reset => exact .next (((h.restartLine [] []).setPbuf []).setParser .idle nofun nofun nofun)

theorem step_agree {s t : State} (h : SameLive s t) (hs : s.inv) (ht : t.inv) : Agree (step s) (step t) := by
  have hc := cfg_ok_of_inv hs
  have hc' := cfg_ok_of_inv ht
  cases hq : s.inq with
  | nil =>
    rw [step_idle hc hq, step_idle hc' (h.inq ▸ hq)]
    exact .next h
  | cons e rest =>
    have hq' : t.inq = e :: rest := h.inq ▸ hq
    cases hd : decode s.cfg (selectorOf s e).1 (selectorOf s e).2 with
    | error r =>
      rw [step_of_decode_error hc hq hd, step_of_decode_error hc' hq' (h.selectorOf_eq e ▸ h.cfg ▸ hd)]
      exact .refused _
    | ok i =>
      rw [step_of_decode hc hq hd, step_of_decode hc' hq' (h.selectorOf_eq e ▸ h.cfg ▸ hd)]
      exact exec_agree (h.setInq rest) (inv_setInq hs rest) (inv_setInq ht rest) (decode_selectorOf_selectedIn hd)

/-- Settles O42: the two steps agree, so the second has the outcome of the first. -/
theorem unspecifiedStateIsUnobservable : Obligations.UnspecifiedStateIsUnobservable := by
  intro s t hs ht h
  have hagree := step_agree h hs ht
  constructor
  · intro s' hstep
    rw [hstep] at hagree
    generalize step t = q at hagree ⊢
    cases hagree with
    | next h' => exact ⟨_, rfl, h'⟩
  · intro r hstep
    rw [hstep] at hagree
    generalize step t = q at hagree ⊢
    cases hagree with
    | refused => rfl

/-! ### The closed loop: the last command of a trace -/

theorem lastCommand_append_act (target : ActTarget) (es : List OutEvent) (tgt : ActTarget) (v : Bit) :
    lastCommand target (es ++ [.act tgt v]) = if tgt = target then some v else lastCommand target es := by
  induction es with
  | nil => rfl
  | cons e rest ih =>
    simp only [List.cons_append, lastCommand, ih]
    split_ifs <;> rfl

theorem sampledLevel_emit_act_same (raw : Bit → Bit) (atStart : Bit) (target : ActTarget) (v : Bit) (s : State) :
    sampledLevel raw atStart target (s.emit (.act target v)) = raw v := by
  simp [sampledLevel, lastCommand_append_act]

theorem sampledLevel_emit_act_other (raw : Bit → Bit) (atStart : Bit) {other target : ActTarget} (h : other ≠ target)
    (v : Bit) (s : State) :
    sampledLevel raw atStart other (s.emit (.act target v)) = sampledLevel raw atStart other s := by
  simp [sampledLevel, lastCommand_append_act, h.symm]

/-- Settles O43: each LED operation emits its command and nothing else, and the command is then the last of the trace. -/
theorem closedLoopReadsTheLastCommand : Obligations.ClosedLoopReadsTheLastCommand := by
  intro i target v s t raw atStart hi ht
  have hemit : exec i s = .next (s.emit (.act target v)) := by
    obtain ⟨⟨d, rfl | rfl⟩, rfl, rfl⟩ | ⟨⟨d, rfl | rfl⟩, rfl, rfl⟩ | ⟨⟨d, rfl | rfl⟩, rfl, rfl⟩ |
      ⟨⟨d, rfl | rfl⟩, rfl, rfl⟩ := hi <;> rfl
  cases hemit.symm.trans ht
  exact ⟨sampledLevel_emit_act_same raw atStart target v s,
    fun _ hother => sampledLevel_emit_act_other raw atStart hother v s⟩

end Sys2Proof.Machine

namespace Sys2Proof.Machine

/-! ### What a result adds to the trace (R61)

As with `NoFault` and `NextInv`, sequencing keeps the property, so every operation has it by its parts. -/

/-- A next state, if there is one, has the trace of `s` and then events of kind `P`. -/
def Emits (P : List OutEvent → Prop) (s : State) (r : Result) : Prop :=
  ∀ t, r = .next t → ∃ es, P es ∧ t.out = s.out ++ es

/-- The kind of a framer command: link bytes. -/
def LinkBytes (es : List OutEvent) : Prop := ∃ bytes, es = SpecText.link bytes

/-- The kind of a link byte at an active tag: nothing, or one dispatch and then at most one action or echo. -/
def LinkOutputs (tag : Byte) (es : List OutEvent) : Prop :=
  es = [] ∨ ∃ d more, es = .dispatch tag d :: more ∧
    (more = [] ∨ (∃ x, more = [.linkTx x]) ∨ ∃ target v, more = [.act target v])

/-- The kind of a console byte: nothing, "hi" or one action. -/
def ConsoleOutputs (es : List OutEvent) : Prop :=
  es = [] ∨ es = [.conTx 0x68#8, .conTx 0x69#8] ∨ ∃ target v, es = [.act target v]

section
variable {P Q R : List OutEvent → Prop} {s u : State} {r : Result}

theorem emits_next {es : List OutEvent} (hP : P es) (hu : u.out = s.out ++ es) : Emits P s (.next u) := by
  rintro t ⟨⟩
  exact ⟨es, hP, hu⟩

theorem emits_nil_next (hu : u.out = s.out) : Emits (· = []) s (.next u) :=
  emits_next rfl (hu.trans (List.append_nil _).symm)

theorem emits_linkBytes_next {bytes : List Byte} (hu : u.out = s.out ++ SpecText.link bytes) :
    Emits LinkBytes s (.next u) :=
  emits_next ⟨bytes, rfl⟩ hu

theorem emits_fault (e : Fault) : Emits P s (.fault e) := nofun

theorem emits_refused (e : Refusal) : Emits P s (.refused e) := nofun

theorem Emits.mono (h : Emits P s r) (hPQ : ∀ es, P es → Q es) : Emits Q s r := by
  intro t ht
  obtain ⟨es, hP, hout⟩ := h t ht
  exact ⟨es, hPQ es hP, hout⟩

/-- Whatever the kind, the trace grows. -/
theorem Emits.grows (h : Emits P s r) : Emits (fun _ => True) s r := h.mono fun _ _ => trivial

theorem Emits.andThen {k : State → Result} (hr : Emits P s r) (hk : ∀ u, Emits Q u (k u))
    (happend : ∀ es fs, P es → Q fs → R (es ++ fs)) : Emits R s (andThen r k) := by
  intro t ht
  obtain ⟨u, hu, hkt⟩ := andThen_eq_next.mp ht
  obtain ⟨es, hP, hes⟩ := hr u hu
  obtain ⟨fs, hQ, hfs⟩ := hk u t hkt
  exact ⟨es ++ fs, happend es fs hP hQ, by rw [hfs, hes, List.append_assoc]⟩

theorem Emits.nil_andThen {k : State → Result} (hr : Emits (· = []) s r) (hk : ∀ u, Emits P u (k u)) :
    Emits P s (Machine.andThen r k) :=
  hr.andThen hk fun _ _ hes hP => by rwa [hes]

theorem LinkBytes.append {es fs : List OutEvent} (hes : LinkBytes es) (hfs : LinkBytes fs) : LinkBytes (es ++ fs) := by
  obtain ⟨bs, rfl⟩ := hes
  obtain ⟨cs, rfl⟩ := hfs
  exact ⟨bs ++ cs, List.map_append.symm⟩

theorem Emits.linkBytes_andThen {k : State → Result} (hr : Emits LinkBytes s r) (hk : ∀ u, Emits LinkBytes u (k u)) :
    Emits LinkBytes s (Machine.andThen r k) :=
  hr.andThen hk fun _ _ => LinkBytes.append

/-- Link bytes sent first go before those that follow. -/
theorem Emits.of_emitLink {bytes : List Byte} (h : Emits LinkBytes (s.emitLink bytes) r) : Emits LinkBytes s r := by
  intro t ht
  obtain ⟨es, hes, hout⟩ := h t ht
  exact ⟨SpecText.link bytes ++ es, .append ⟨bytes, rfl⟩ hes, hout.trans (List.append_assoc _ _ _)⟩

end

/-! ### The framer: link bytes only (R123) -/

theorem pbufAppend_emits_nil (cs : List Byte) (s : State) : Emits (· = []) s (pbufAppend cs s) := by
  unfold pbufAppend
  split
  · exact emits_nil_next rfl
  · exact emits_refused _

theorem serItems_emits_nil (items : List Item) (s : State) : Emits (· = []) s (serItems items s) := by
  induction items generalizing s with
  | nil => exact emits_nil_next rfl
  | cons item rest ih =>
    cases item with
    | byte v => exact (pbufAppend_emits_nil _ s).nil_andThen ih
    | word v => exact (execSerWord_eq v s ▸ pbufAppend_emits_nil _ s).nil_andThen ih

theorem execFrmSingle_emits (t : Byte) (items : List Item) (s : State) :
    Emits LinkBytes s (execFrmSingle t items s) :=
  (serItems_emits_nil items (s.setPbuf [])).nil_andThen fun u =>
    emits_linkBytes_next (bytes := [startByte, t, sepSingle] ++ u.pbuf ++ [endByte, crByte, lfByte])
      (by simp [closeFrame, SpecText.link])

theorem execFrmString_emits (t : Byte) (str : List Byte) (s : State) : Emits LinkBytes s (execFrmString t str s) := by
  simp only [execFrmString, serChars_eq, andThen_next]
  exact emits_linkBytes_next (bytes := [startByte, t, sepSingle] ++ str.flatMap hexOfByte ++ [endByte, crByte, lfByte])
    (by simp [closeFrame, SpecText.link])

theorem subField_emits (t : Byte) (items : List Item) (s : State) : Emits LinkBytes s (subField t items s) :=
  (serItems_emits_nil items (s.setPbuf [])).nil_andThen fun u =>
    emits_linkBytes_next (bytes := [t, sepKey] ++ u.pbuf ++ [sepSingle]) (by simp [SpecText.link])

theorem execFrmAgg_emits (a : AggOperands) (s : State) : Emits LinkBytes s (execFrmAgg a s) := by
  refine Emits.of_emitLink (bytes := [startByte]) ?_
  exact (subField_emits _ _ _).linkBytes_andThen fun _ => (subField_emits _ _ _).linkBytes_andThen fun _ =>
    (subField_emits _ _ _).linkBytes_andThen fun _ => (subField_emits _ _ _).linkBytes_andThen fun _ =>
      (subField_emits _ _ _).linkBytes_andThen fun _ => emits_linkBytes_next (bytes := [endByte, crByte, lfByte]) rfl

theorem decodeAgg_eq_ok {bytes : List Byte} {i : Instr} (h : decodeAgg bytes = .ok i) : ∃ a, i = .frmAgg a := by
  unfold decodeAgg at h
  split at h
  · obtain ⟨btn, h⟩ := eq_ok_of_bind_eq_ok h
    obtain ⟨conn, h⟩ := eq_ok_of_bind_eq_ok h
    obtain ⟨eled, h⟩ := eq_ok_of_bind_eq_ok h
    obtain ⟨dled, h⟩ := eq_ok_of_bind_eq_ok h
    obtain ⟨gpio1, h⟩ := eq_ok_of_bind_eq_ok h
    obtain ⟨gpio2, h⟩ := eq_ok_of_bind_eq_ok h
    cases h
    exact ⟨_, rfl⟩
  · cases h

theorem decodeFrm_eq_ok {bytes : List Byte} {i : Instr} (h : decodeFrm bytes = .ok i) :
    (∃ t items, i = .frmSingle t items) ∨ (∃ t str, i = .frmString t str) ∨ ∃ a, i = .frmAgg a := by
  unfold decodeFrm at h
  split at h
  · cases h
  · split at h
    · split at h
      · cases h
      · split at h
        · cases h
          exact .inl ⟨_, _, rfl⟩
        · cases h
    · split at h
      · cases h
      · cases h
        exact .inr (.inl ⟨_, _, rfl⟩)
    · exact .inr (.inr (decodeAgg_eq_ok h))
    · cases h
    · cases h

theorem exec_decodeFrm_emits {bytes : List Byte} {i : Instr} (h : decodeFrm bytes = .ok i) (s : State) :
    Emits LinkBytes s (exec i s) := by
  obtain ⟨t, items, rfl⟩ | ⟨t, str, rfl⟩ | ⟨a, rfl⟩ := decodeFrm_eq_ok h
  · exact execFrmSingle_emits t items s
  · exact execFrmString_emits t str s
  · exact execFrmAgg_emits a s

/-! ### The parser and the line session work on registers of their own (R192) -/

/-- The state with the parser's registers of `p`, the line session of `l`, and the rest of `s` but for the given waiting
events and trace. -/
def State.join (s p l : State) (q : List InEvent) (out : List OutEvent) : State :=
  { s with pstate := p.pstate, tag := p.tag, length := p.length, data := p.data, buf := l.buf, cursor := l.cursor,
           inq := q, out := out }

/-- `k` works on the parser's registers of `s` alone: from every line session, waiting events and trace it reaches the
same registers, emits the same events, and leaves everything else as it was. -/
def ParserLocal (k : State → Result) (s : State) : Prop :=
  ∃ p es, LinkOutputs s.tag es ∧ ∀ l q out, k (s.join s l q out) = .next (s.join p l q (out ++ es))

/-- `k` works on the line session of `s` alone. -/
def LineLocal (k : State → Result) (s : State) : Prop :=
  ∃ l es, ConsoleOutputs es ∧ ∀ p q out, k (s.join p s q out) = .next (s.join p l q (out ++ es))

/-! ### The parser: nothing, or a dispatch and what it leads to (R148, R170) -/

theorem dispatch_dspEvents_linkOutputs (c : Config) (t d : Byte) : LinkOutputs t (.dispatch t d :: dspEvents c t d) := by
  refine .inr ⟨d, _, rfl, ?_⟩
  unfold dspEvents
  split_ifs
  all_goals simp

theorem execParOdd_emits (b : Byte) (s : State) : Emits (LinkOutputs s.tag) s (execParOdd b s) :=
  execParOdd_eq b s ▸ emits_next (dispatch_dspEvents_linkOutputs s.cfg s.tag _) rfl

theorem parserLocal_of_silent {k : State → Result} {s : State} (p : State)
    (hk : ∀ l q out, k (s.join s l q out) = .next (s.join p l q out)) : ParserLocal k s :=
  ⟨p, [], .inl rfl, fun l q out => (List.append_nil out).symm ▸ hk l q out⟩

theorem exec_decodeTransition_local (b : Byte) (s : State) : ParserLocal (exec (decodeTransition s.pstate b)) s := by
  cases s.pstate with
  | idle =>
    simp only [decodeTransition]
    split
    · exact parserLocal_of_silent (s.setPstate .sequenceNumber) fun _ _ _ => rfl
    · exact parserLocal_of_silent (s.setPstate .idle) fun _ _ _ => rfl
  | sequenceNumber => exact parserLocal_of_silent (s.setPstate .packetId) fun _ _ _ => rfl
  | packetId => exact parserLocal_of_silent ((s.setTag b).setPstate .payloadSizeHigh) fun _ _ _ => rfl
  | payloadSizeHigh =>
    exact parserLocal_of_silent ((s.setLength ((dec b).setWidth 8)).setPstate .payloadSizeLow) fun _ _ _ => rfl
  | payloadSizeLow =>
    exact parserLocal_of_silent ((s.setLength (shiftIn s.length b)).setPstate .payloadNibbleEven) fun _ _ _ => rfl
  | payloadNibbleEven =>
    exact parserLocal_of_silent (countNibble .payloadNibbleOdd (s.setData ((dec b).setWidth 8))) fun _ _ _ => rfl
  | payloadNibbleOdd =>
    exact ⟨countNibble .payloadNibbleEven (s.setData (shiftIn s.data b)), _,
      dispatch_dspEvents_linkOutputs s.cfg s.tag (shiftIn s.data b), fun l q out => execParOdd_eq b (s.join s l q out)⟩

theorem ParserLocal.emits {k : State → Result} {s : State} (h : ParserLocal k s) : Emits (LinkOutputs s.tag) s (k s) := by
  obtain ⟨p, es, hes, hk⟩ := h
  have hself : k s = .next (s.join p s s.inq (s.out ++ es)) := hk s s.inq s.out
  exact hself ▸ emits_next hes rfl

/-! ### The line session: nothing, "hi" or an action (R184, R185) -/

theorem lineEvents_consoleOutputs (text : List Byte) : ConsoleOutputs (lineEvents text) := by
  unfold lineEvents ConsoleOutputs
  split_ifs
  all_goals simp

theorem bufWrite_emits_nil (i : Nat) (v : Byte) (s : State) : Emits (· = []) s (bufWrite i v s) := by
  unfold bufWrite
  split
  · exact emits_nil_next rfl
  · exact emits_fault _

theorem terminate_emits (s : State) : Emits ConsoleOutputs s (terminate s) := by
  by_cases h : s.cursor < s.cfg.lineCap
  · exact terminate_eq s h ▸ emits_next (lineEvents_consoleOutputs _) rfl
  · exact terminate_fault s h ▸ emits_fault _

theorem execLinChar_emits (b : Byte) (s : State) : Emits ConsoleOutputs s (execLinChar b s) := by
  refine (bufWrite_emits_nil s.cursor b s).nil_andThen fun u => ?_
  split
  · exact terminate_emits (u.setCursor (u.cursor + 1))
  · exact (emits_nil_next rfl).mono fun _ => .inl

theorem exec_decodeConsole_emits (b : Byte) (s : State) : Emits ConsoleOutputs s (exec (decodeConsole b) s) := by
  simp only [decodeConsole]
  split_ifs
  · exact terminate_emits s
  · exact terminate_emits s
  · exact execLinChar_emits b s

/-! ### The trace only grows -/

/-- Every operation, selected or not, leaves the trace it finds as the beginning of the trace it answers. -/
theorem exec_grows (i : Instr) (s : State) : Emits (fun _ => True) s (exec i s) := by
  cases i with
  | serByte v => exact (pbufAppend_emits_nil _ s).grows
  | serWord v => exact (execSerWord_eq v s ▸ pbufAppend_emits_nil _ s).grows
  | frmSingle t items => exact (execFrmSingle_emits t items s).grows
  | frmString t str => exact (execFrmString_emits t str s).grows
  | frmAgg a => exact (execFrmAgg_emits a s).grows
  | parOdd b => exact (execParOdd_emits b s).grows
  | linTermCr | linTermLf => exact (terminate_emits s).grows
  | linChar b => exact (execLinChar_emits b s).grows
  | serChar => exact emits_next trivial rfl
  | dspLedDataOff | dspLedDataOn | dspLedErrOff | dspLedErrOn | dspSerial => exact emits_next trivial rfl
  | linHello | linDataOff | linDataOn | linErrOff | linErrOn => exact emits_next trivial rfl
  | _ => exact (emits_nil_next rfl).grows

/-- Settles O39: each event selects operations of one kind of output. Of the model's own events, whose operations may be
of any kind, only the growth of the trace is claimed. -/
theorem outputsOfEachEvent : Obligations.OutputsOfEachEvent := by
  intro s t e rest hq ht
  obtain ⟨-, ⟨hnil, -⟩ | ⟨e', rest', i, hq', hd, hexec⟩⟩ := step_eq_next ht
  · cases hnil.symm.trans hq
  cases hq'.symm.trans hq
  cases e with
  | reset =>
    cases hd
    cases hexec
    exact ⟨[], (List.append_nil _).symm, fun _ => rfl, nofun, nofun, nofun⟩
  | linkRx b =>
    cases (decodePar_code s.pstate b).symm.trans hd
    obtain ⟨es, hes, hout⟩ := (exec_decodeTransition_local b (s.setInq rest)).emits t hexec
    exact ⟨es, hout, nofun, fun _ _ => hes, nofun, nofun⟩
  | conRx b =>
    cases hd
    obtain ⟨es, hes, hout⟩ := exec_decodeConsole_emits b (s.setInq rest) t hexec
    exact ⟨es, hout, nofun, nofun, fun _ _ => hes, nofun⟩
  | frmCmd request =>
    obtain ⟨es, hes, hout⟩ := exec_decodeFrm_emits hd (s.setInq rest) t hexec
    exact ⟨es, hout, nofun, nofun, nofun, fun _ _ => hes⟩
  | dspCall | lineCall | funcCall =>
    obtain ⟨es, -, hout⟩ := exec_grows i (s.setInq rest) t hexec
    exact ⟨es, hout, nofun, nofun, nofun, nofun⟩

/-! ### The line session under the invariant -/

theorem terminate_local {s : State} (h : s.cursor < s.cfg.lineCap) : LineLocal terminate s :=
  ⟨(s.setBuf (s.buf.write s.cursor nulByte)).setCursor 0, _,
    lineEvents_consoleOutputs (lineText (s.setBuf (s.buf.write s.cursor nulByte))),
    fun p q out => terminate_eq (s.join p s q out) h⟩

theorem execLinChar_local (b : Byte) {s : State} (h : s.cursor + 2 ≤ s.cfg.lineCap) : LineLocal (execLinChar b) s := by
  obtain hlast | hbelow := h.eq_or_lt
  · obtain ⟨l, es, hes, hterm⟩ := terminate_local (s := storeChar b s) (show s.cursor + 1 < s.cfg.lineCap by omega)
    exact ⟨l, es, hes, fun p q out => (execLinChar_of_last (s := s.join p s q out) hlast).trans (hterm p q out)⟩
  · refine ⟨storeChar b s, [], .inl rfl, fun p q out => ?_⟩
    rw [execLinChar_of_below (s := s.join p s q out) hbelow, List.append_nil]
    rfl

theorem exec_decodeConsole_local (b : Byte) {s : State} (h : s.cursor + 2 ≤ s.cfg.lineCap) :
    LineLocal (exec (decodeConsole b)) s := by
  simp only [decodeConsole]
  split_ifs
  · exact terminate_local (by omega)
  · exact terminate_local (by omega)
  · exact execLinChar_local b h

/-! ### Neither side's events are the other's -/

theorem LinkOutputs.no_conTx {tag : Byte} {es : List OutEvent} (h : LinkOutputs tag es) :
    ∀ x ∈ es, ∀ v, x ≠ .conTx v := by
  obtain rfl | ⟨d, more, rfl, rfl | ⟨y, rfl⟩ | ⟨target, w, rfl⟩⟩ := h
  all_goals simp

theorem ConsoleOutputs.no_link_event {es : List OutEvent} (h : ConsoleOutputs es) :
    ∀ x ∈ es, (∀ v, x ≠ .linkTx v) ∧ ∀ u v, x ≠ .dispatch u v := by
  obtain rfl | rfl | ⟨target, w, rfl⟩ := h
  all_goals simp

theorem run_two {s u t : State} (h₁ : step s = .next u) (h₂ : step u = .next t) : run 2 s = .next t := by
  simp only [run_succ, run_zero, h₁, h₂, andThen_next]

/-- Settles O41: the parser does not read the line session nor the line session the parser, so each byte does in the
second place what it does in the first. -/
theorem linkAndConsoleBytesCommute : Obligations.LinkAndConsoleBytesCommute := by
  intro s a b rest hinv
  have hc := cfg_ok_of_inv hinv
  obtain ⟨p, esLink, hLink, hparser⟩ := exec_decodeTransition_local a s
  obtain ⟨l, esCon, hCon, hline⟩ := exec_decodeConsole_local b (cursor_le_of_inv hinv)
  have hlink (l' : State) (q : List InEvent) (out : List OutEvent) :
      step (s.join s l' (.linkRx a :: q) out) = .next (s.join p l' q (out ++ esLink)) :=
    (step_linkRx (s := s.join s l' (.linkRx a :: q) out) hc rfl).trans (hparser l' q out)
  have hcon (p' : State) (q : List InEvent) (out : List OutEvent) :
      step (s.join p' s (.conRx b :: q) out) = .next (s.join p' l q (out ++ esCon)) :=
    (step_conRx (s := s.join p' s (.conRx b :: q) out) hc rfl).trans (hline p' q out)
  exact ⟨s.join p l rest [], esLink, esCon, run_two (hlink s (.conRx b :: rest) s.out) (hcon p rest _),
    run_two (hcon s (.linkRx a :: rest) s.out) (hlink l rest _), hLink.no_conTx, hCon.no_link_event⟩

end Sys2Proof.Machine

namespace Sys2Proof

/-! ### Selection: the decoder against the encoder (R90, R91)

One direction is the family `Laws.RoundTrip`. For the other, each decoder of a piece is inverted: what it accepts is what the
encoder of the piece writes. -/

/-- Settles O44: the family `RoundTrip` has one lemma per operation. -/
theorem decodeOfEncodeIsTheOperation : Obligations.DecodeOfEncodeIsTheOperation := by
  intro c i h
  cases i with
  | hexEnc n => exact Laws.RoundTrip.hexEnc n c h
  | hexDec ch => exact Laws.RoundTrip.hexDec ch c h
  | serByte v => exact Laws.RoundTrip.serByte v c h
  | serWord v => exact Laws.RoundTrip.serWord v c h
  | serChar ch => exact Laws.RoundTrip.serChar ch c h
  | frmSingle t items => exact Laws.RoundTrip.frmSingle t items c h
  | frmString t str => exact Laws.RoundTrip.frmString t str c h
  | frmAgg a => exact Laws.RoundTrip.frmAgg a c h
  | valButton btn => exact Laws.RoundTrip.valButton btn c h
  | valLed conn eled dled => exact Laws.RoundTrip.valLed conn eled dled c h
  | valGpio gpio1 gpio2 => exact Laws.RoundTrip.valGpio gpio1 gpio2 c h
  | valAxis a => exact Laws.RoundTrip.valAxis a c h
  | parStart => exact Laws.RoundTrip.parStart c h
  | parSkip b => exact Laws.RoundTrip.parSkip b c h
  | parSeq b => exact Laws.RoundTrip.parSeq b c h
  | parTag b => exact Laws.RoundTrip.parTag b c h
  | parLenHi b => exact Laws.RoundTrip.parLenHi b c h
  | parLenLo b => exact Laws.RoundTrip.parLenLo b c h
  | parEven b => exact Laws.RoundTrip.parEven b c h
  | parOdd b => exact Laws.RoundTrip.parOdd b c h
  | dspLedDataOff d => exact Laws.RoundTrip.dspLedDataOff d c h
  | dspLedDataOn d => exact Laws.RoundTrip.dspLedDataOn d c h
  | dspLedErrOff d => exact Laws.RoundTrip.dspLedErrOff d c h
  | dspLedErrOn d => exact Laws.RoundTrip.dspLedErrOn d c h
  | dspSerial d => exact Laws.RoundTrip.dspSerial d c h
  | dspNop t d => exact Laws.RoundTrip.dspNop t d c h
  | linTermCr => exact Laws.RoundTrip.linTermCr c h
  | linTermLf => exact Laws.RoundTrip.linTermLf c h
  | linChar b => exact Laws.RoundTrip.linChar b c h
  | linHello => exact Laws.RoundTrip.linHello c h
  | linDataOff => exact Laws.RoundTrip.linDataOff c h
  | linDataOn => exact Laws.RoundTrip.linDataOn c h
  | linErrOff => exact Laws.RoundTrip.linErrOff c h
  | linErrOn => exact Laws.RoundTrip.linErrOn c h
  | linNoMatch text => exact Laws.RoundTrip.linNoMatch text c h
  | reset => exact Laws.RoundTrip.reset c h

/-- Settles O47: each word evaluates, whatever the parameters, since none of them is compared with `TAG_SERIAL`. -/
theorem selectorWordsDecode : Obligations.SelectorWordsDecode :=
  fun _ => ⟨rfl, rfl, rfl, rfl, rfl, rfl, rfl, rfl, rfl, rfl⟩

/-! ### The pieces inverted -/

theorem PState.code_of_ofCode {code : Byte} {p : PState} (h : PState.ofCode code = some p) : p.code = code := by
  unfold PState.ofCode at h
  split at h
  case h_8 => cases h
  all_goals
    rename_i hcode
    cases h
    exact BitVec.eq_of_toNat_eq hcode.symm

@[simp] theorem loByte_wordOf (l h : Byte) : Machine.loByte (Machine.wordOf l h) = l :=
  BitVec.extractLsb'_append_eq_right

@[simp] theorem hiByte_wordOf (l h : Byte) : Machine.hiByte (Machine.wordOf l h) = h :=
  BitVec.extractLsb'_append_eq_left

@[simp] theorem encodeWord_wordOf (l h : Byte) : encodeWord (Machine.wordOf l h) = [l, h] := by
  simp [encodeWord]

theorem decodeBit_bind_eq_ok {b : Byte} {f : Bit → Except DecodeError Instr} {i : Instr}
    (h : (decodeBit b >>= f) = .ok i) : ∃ v, b = encodeBit v ∧ f v = .ok i := by
  unfold decodeBit at h
  split_ifs at h with h0 h1
  · exact ⟨0#1, h0, h⟩
  · exact ⟨1#1, h1, h⟩
  · cases h

theorem encodeItem_of_decodeItems {bytes : List Byte} {items : List Item} (h : decodeItems bytes = .ok items) :
    items.flatMap encodeItem = bytes := by
  fun_induction decodeItems bytes generalizing items with
  | case1 => cases h; rfl
  | case3 v => cases h; rfl
  | case5 v x rest _ hrest ih =>
    cases h
    simp [encodeItem, ih hrest]
  | case7 v x rest _ hrest _ ih =>
    cases h
    simp [encodeItem, ih hrest]
  | case2 | case4 | case6 | case8 | case9 => cases h

/-! ### What a decoder accepts, format by format -/

theorem decodePar_eq_ok {bytes : List Byte} {i : Instr} (h : decodePar bytes = .ok i) :
    ∃ p b, bytes = [PState.code p, b] ∧ i = decodeTransition p b := by
  unfold decodePar at h
  split at h
  · split at h
    · rename_i code b _ p hp
      cases h
      exact ⟨p, b, by rw [PState.code_of_ofCode hp], rfl⟩
    · cases h
  · cases h

theorem decodeDsp_eq_ok {c : Config} {bytes : List Byte} {i : Instr} (h : decodeDsp c bytes = .ok i) :
    ∃ t d, bytes = [t, d] ∧ i = decodeDispatch c t d := by
  unfold decodeDsp at h
  split at h
  · cases h
    exact ⟨_, _, rfl, rfl⟩
  · cases h

theorem decodeLinByte_eq_ok {bytes : List Byte} {i : Instr} (h : decodeLinByte bytes = .ok i) :
    ∃ b, bytes = [b] ∧ i = decodeConsole b := by
  unfold decodeLinByte at h
  split at h
  · cases h
    exact ⟨_, rfl, rfl⟩
  · cases h

theorem decodeEvent_eq_ok {bytes : List Byte} {i : Instr} (h : decodeEvent bytes = .ok i) : bytes = [] ∧ i = .reset := by
  unfold decodeEvent at h
  split at h
  · cases h
    exact ⟨rfl, rfl⟩
  · cases h

theorem encode_of_decodeAgg (c : Config) {ops : List Byte} {i : Instr} (h : decodeAgg ops = .ok i) :
    WellFormed c i = true ∧ encode c i = (.frm, 2#8 :: ops) := by
  unfold decodeAgg at h
  split at h
  · obtain ⟨btn, hbtn, h⟩ := decodeBit_bind_eq_ok h
    obtain ⟨conn, hconn, h⟩ := decodeBit_bind_eq_ok h
    obtain ⟨eled, heled, h⟩ := decodeBit_bind_eq_ok h
    obtain ⟨dled, hdled, h⟩ := decodeBit_bind_eq_ok h
    obtain ⟨gpio1, hgpio1, h⟩ := decodeBit_bind_eq_ok h
    obtain ⟨gpio2, hgpio2, h⟩ := decodeBit_bind_eq_ok h
    cases h
    simp [WellFormed, encode, hbtn, hconn, heled, hdled, hgpio1, hgpio2]
  · cases h

theorem encode_of_decodeFrm (c : Config) {bytes : List Byte} {i : Instr} (h : decodeFrm bytes = .ok i) :
    WellFormed c i = true ∧ encode c i = (.frm, bytes) := by
  unfold decodeFrm at h
  split at h
  · cases h
  · split at h <;> rename_i hsel
    case h_4 | h_5 => cases h
    all_goals obtain ⟨-, rfl⟩ := BitVec.toNat_eq_nat.mp hsel
    · split at h
      · cases h
      · split at h
        · rename_i hitems
          cases h
          simp [WellFormed, encode, encodeItem_of_decodeItems hitems]
        · cases h
    · split at h
      · cases h
      · cases h
        exact ⟨rfl, rfl⟩
    · exact encode_of_decodeAgg c h

/-- The one operand that its decoder narrows is the nibble of `HEX.ENC` (R100, log 15). -/
theorem encode_of_decodeFunc (c : Config) {bytes : List Byte} {i : Instr} (h : decodeFunc bytes = .ok i) :
    WellFormed c i = true ∧ ((∀ n, i ≠ .hexEnc n) → encode c i = (.func, bytes)) := by
  unfold decodeFunc at h
  split at h
  · cases h
  · split at h <;> rename_i hf
    case h_10 => cases h
    all_goals obtain ⟨-, rfl⟩ := BitVec.toNat_eq_nat.mp hf
    case h_1 =>
      split at h <;> cases h
      exact ⟨rfl, fun hne => absurd rfl (hne _)⟩
    case h_2 | h_3 | h_5 =>
      split at h <;> cases h
      exact ⟨rfl, fun _ => rfl⟩
    case h_4 | h_9 =>
      split at h <;> cases h
      exact ⟨rfl, fun _ => by simp [encode]⟩
    case h_6 =>
      split at h
      · obtain ⟨btn, hbtn, h⟩ := decodeBit_bind_eq_ok h
        cases h
        exact ⟨rfl, fun _ => by rw [hbtn]; rfl⟩
      · cases h
    case h_7 =>
      split at h
      · obtain ⟨conn, hconn, h⟩ := decodeBit_bind_eq_ok h
        obtain ⟨eled, heled, h⟩ := decodeBit_bind_eq_ok h
        obtain ⟨dled, hdled, h⟩ := decodeBit_bind_eq_ok h
        cases h
        exact ⟨rfl, fun _ => by rw [hconn, heled, hdled]; rfl⟩
      · cases h
    case h_8 =>
      split at h
      · obtain ⟨gpio1, hgpio1, h⟩ := decodeBit_bind_eq_ok h
        obtain ⟨gpio2, hgpio2, h⟩ := decodeBit_bind_eq_ok h
        cases h
        exact ⟨rfl, fun _ => by rw [hgpio1, hgpio2]; rfl⟩
      · cases h

/-! ### The operation a word selects is well formed and has that word -/

theorem encode_decodeTransition (c : Config) (p : PState) (b : Byte) :
    WellFormed c (decodeTransition p b) = true ∧ encode c (decodeTransition p b) = (.par, [p.code, b]) := by
  cases p with
  | idle =>
    simp only [decodeTransition]
    split_ifs with hb
    · simp [WellFormed, encode, hb]
    · simp [WellFormed, encode, hb]
  | _ => exact ⟨rfl, rfl⟩

theorem encode_decodeDispatch (c : Config) (t d : Byte) :
    WellFormed c (decodeDispatch c t d) = true ∧ encode c (decodeDispatch c t d) = (.dsp, [t, d]) := by
  by_cases ht : t = tagLed
  · cases h4 : d.getLsbD 4 <;> cases h0 : d.getLsbD 0
    all_goals simp only [decodeDispatch, WellFormed, encode, ht, h4, h0, if_true, Bool.false_eq_true, if_false]
    all_goals exact ⟨rfl, trivial⟩
  · by_cases hs : t = c.tagSerial
    · simp [decodeDispatch, WellFormed, encode, hs, hs ▸ ht]
    · simp [decodeDispatch, WellFormed, encode, ht, hs]

theorem encode_decodeConsole (c : Config) (b : Byte) :
    WellFormed c (decodeConsole b) = true ∧ encode c (decodeConsole b) = (.linByte, [b]) := by
  simp only [decodeConsole]
  split_ifs with hcr hlf
  · simp [WellFormed, encode, hcr]
  · simp [WellFormed, encode, hlf]
  · simp [WellFormed, encode, hcr, hlf]

theorem encode_decodeText (c : Config) (text : List Byte) :
    WellFormed c (decodeText text) = true ∧ encode c (decodeText text) = (.linText, text) := by
  simp only [decodeText]
  split_ifs
  all_goals simp [WellFormed, encode, vocabulary, *]

theorem encode_of_decode {c : Config} {f : Format} {bytes : List Byte} {i : Instr} (h : decode c f bytes = .ok i) :
    WellFormed c i = true ∧ ((∀ n, i ≠ .hexEnc n) → encode c i = (f, bytes)) := by
  cases f with
  | func => exact encode_of_decodeFunc c h
  | event =>
    obtain ⟨rfl, rfl⟩ := decodeEvent_eq_ok h
    exact ⟨rfl, fun _ => rfl⟩
  | frm => exact (encode_of_decodeFrm c h).imp_right fun henc _ => henc
  | par =>
    obtain ⟨p, b, rfl, rfl⟩ := decodePar_eq_ok h
    exact (encode_decodeTransition c p b).imp_right fun henc _ => henc
  | dsp =>
    obtain ⟨t, d, rfl, rfl⟩ := decodeDsp_eq_ok h
    exact (encode_decodeDispatch c t d).imp_right fun henc _ => henc
  | linByte =>
    obtain ⟨b, rfl, rfl⟩ := decodeLinByte_eq_ok h
    exact (encode_decodeConsole c b).imp_right fun henc _ => henc
  | linText =>
    cases h
    exact (encode_decodeText c bytes).imp_right fun henc _ => henc

/-- Settles O45: in each format what the decoder accepts is what the encoder writes. Well-formedness of `DSP.SERIAL` needs
no assumption on the tags, since the LED tag is tested first (R170). -/
theorem decodedOperationsAreWellFormed : Obligations.DecodedOperationsAreWellFormed :=
  fun _ _ _ _ _ h => encode_of_decode h

end Sys2Proof

namespace Sys2Proof

/-! ### The rows of the operation map against the decoder (R90, R91)

Each row's word is brought to bytes; the first match is then the decoder's own chain of tests. -/

/-- The mnemonic of the first row that selects: `tableMnemonic` over any rows. -/
def firstMnemonic (rows : List OpRow) (f : Format) (bytes : List Byte) : Option String :=
  (rows.find? fun r => r.selects f bytes).map OpRow.mnemonic

theorem tableMnemonic_eq (c : Config) (f : Format) (bytes : List Byte) :
    tableMnemonic c f bytes = firstMnemonic (opRows c) f bytes := rfl

theorem firstMnemonic_cons (r : OpRow) (rows : List OpRow) (f : Format) (bytes : List Byte) :
    firstMnemonic (r :: rows) f bytes = if r.selects f bytes then some r.mnemonic else firstMnemonic rows f bytes := by
  simp only [firstMnemonic, List.find?_cons]
  cases r.selects f bytes <;> rfl

theorem OpRow.selects_of_format_ne {r : OpRow} {f : Format} {bytes : List Byte} (h : r.format ≠ f) :
    r.selects f bytes = false := by
  simp [OpRow.selects, h]

/-- Masking a word of two bytes masks each byte. -/
theorem and_eq_iff_bytes (h m p : Nat) {b : Nat} (hb : b < 256) :
    (h * 256 + b) &&& m = p ↔ h &&& m / 256 = p / 256 ∧ b &&& m % 256 = p % 256 := by
  have hdiv : (h * 256 + b &&& m) / 256 = h &&& m / 256 := by
    rw [Nat.and_div_two_pow (n := 8), show (h * 256 + b) / 2 ^ 8 = h by omega]
  have hmod : (h * 256 + b &&& m) % 256 = b &&& m % 256 := by
    rw [Nat.and_mod_two_pow (n := 8), show (h * 256 + b) % 2 ^ 8 = b by omega]
  omega

theorem byte_and_255 (b : Byte) : b.toNat &&& 255 = b.toNat := by
  rw [Nat.and_two_pow_sub_one_eq_mod b.toNat 8, Nat.mod_eq_of_lt b.isLt]

/-- The bits 4 and 0 that name an LED and its value (R171 to R174). -/
theorem byte_and_17 (d : Byte) : d.toNat &&& 17 = (d.getLsbD 4).toNat * 16 + (d.getLsbD 0).toNat := by
  rw [show 17 = 2 ^ 4 ||| 2 ^ 0 from rfl, Nat.and_or_distrib_left, Nat.and_two_pow, Nat.and_two_pow, BitVec.testBit_toNat,
    BitVec.testBit_toNat]
  cases d.getLsbD 4 <;> cases d.getLsbD 0 <;> rfl

theorem OpRow.selects_of_two_bytes (r : OpRow) {f : Format} (hf : f = .par ∨ f = .dsp) (h b : Byte) :
    r.selects f [h, b] = (decide (r.format = f) && (decide (h.toNat &&& r.mask / 256 = r.pattern / 256) &&
      decide (b.toNat &&& r.mask % 256 = r.pattern % 256))) := by
  have hword : selectorNumber f [h, b] = h.toNat * 256 + b.toNat := by
    obtain rfl | rfl := hf <;> simp [selectorNumber, bigEndian]
  have htext : f ≠ .linText := by
    obtain rfl | rfl := hf <;> decide
  simp [OpRow.selects, hword, htext, and_eq_iff_bytes _ _ _ b.isLt]

/-! The decoder's tests as tests for a mnemonic. -/

theorem mnemonic_decodeTransition_idle (b : Byte) :
    (decodeTransition .idle b).mnemonic = if b = startByte then "PAR.START" else "PAR.SKIP" := by
  simp only [decodeTransition]
  split_ifs <;> rfl

theorem mnemonic_decodeDispatch_of_ne {c : Config} {t : Byte} (d : Byte) (ht : t ≠ tagLed) :
    (decodeDispatch c t d).mnemonic = if t = c.tagSerial then "DSP.SERIAL" else "DSP.NOP" := by
  simp only [decodeDispatch, ht, if_false]
  split_ifs <;> rfl

theorem mnemonic_decodeConsole (b : Byte) :
    (decodeConsole b).mnemonic =
      if b = crByte then "LIN.TERM.CR" else if b = lfByte then "LIN.TERM.LF" else "LIN.CHAR" := by
  simp only [decodeConsole]
  split_ifs <;> rfl

theorem mnemonic_decodeText (text : List Byte) :
    (decodeText text).mnemonic =
      if text = textHello then "LIN.HELLO" else if text = textDataOff then "LIN.DATA_OFF"
      else if text = textDataOn then "LIN.DATA_ON" else if text = textErrOff then "LIN.ERR_OFF"
      else if text = textErrOn then "LIN.ERR_ON" else "LIN.NOMATCH" := by
  simp only [decodeText]
  split_ifs <;> rfl

/-! The first match, format by format. -/

theorem tableMnemonic_par (c : Config) (p : PState) (b : Byte) :
    tableMnemonic c .par [p.code, b] = some (decodeTransition p b).mnemonic := by
  have hstart : b.toNat = 123 ↔ b = startByte := BitVec.toNat_inj (y := startByte)
  rw [tableMnemonic_eq]
  cases p with
  | idle =>
    simp [opRows, firstMnemonic_cons, OpRow.selects_of_two_bytes, PState.code, byte_and_255, hstart,
      mnemonic_decodeTransition_idle, apply_ite some]
  | _ => simp [opRows, firstMnemonic_cons, OpRow.selects_of_two_bytes, PState.code, decodeTransition, Instr.mnemonic]

theorem tableMnemonic_dsp (c : Config) (t d : Byte) :
    tableMnemonic c .dsp [t, d] = some (decodeDispatch c t d).mnemonic := by
  rw [tableMnemonic_eq]
  obtain rfl | ht := eq_or_ne t tagLed
  · have hled : tagLed.toNat = 76 := rfl
    have hbits := byte_and_17 d
    cases h4 : d.getLsbD 4 <;> cases h0 : d.getLsbD 0
    all_goals
      rw [h4, h0] at hbits
      simp only [decodeDispatch, h4, h0, if_true, Bool.false_eq_true, if_false, Instr.mnemonic]
      simp [opRows, firstMnemonic_cons, OpRow.selects_of_two_bytes, byte_and_255, hled, hbits]
  · have hled : t.toNat ≠ 76 := fun h => ht (BitVec.eq_of_toNat_eq (y := tagLed) h)
    simp [opRows, firstMnemonic_cons, OpRow.selects_of_two_bytes, byte_and_255, hled, BitVec.toNat_inj,
      mnemonic_decodeDispatch_of_ne d ht, apply_ite some]

theorem tableMnemonic_linByte (c : Config) (b : Byte) :
    tableMnemonic c .linByte [b] = some (decodeConsole b).mnemonic := by
  have hword : selectorNumber .linByte [b] = b.toNat := by simp [selectorNumber, bigEndian]
  have hcr : b.toNat = 13 ↔ b = crByte := BitVec.toNat_inj (y := crByte)
  have hlf : b.toNat = 10 ↔ b = lfByte := BitVec.toNat_inj (y := lfByte)
  simp [tableMnemonic_eq, opRows, firstMnemonic_cons, OpRow.selects, hword, byte_and_255, hcr, hlf,
    mnemonic_decodeConsole, apply_ite some]

/-! A line text is given back by its length and its number, so a word's row selects that word only. -/

theorem bigEndian_eq_ofDigits (bytes : List Byte) :
    bigEndian bytes = Nat.ofDigits 256 (bytes.map BitVec.toNat).reverse := by
  induction bytes with
  | nil => rfl
  | cons b rest ih => simp [bigEndian, ih, Nat.ofDigits_append, Nat.ofDigits_singleton, Nat.add_comm, Nat.mul_comm]

/-- The digits `bigEndian` is made of are below its base. -/
theorem byteDigits_lt {bytes : List Byte} : ∀ n ∈ (bytes.map BitVec.toNat).reverse, n < 256 := by
  simp only [List.mem_reverse, List.mem_map]
  rintro n ⟨b, -, rfl⟩
  exact b.isLt

theorem bigEndian_lt (bytes : List Byte) : bigEndian bytes < 256 ^ bytes.length := by
  simpa [bigEndian_eq_ofDigits] using Nat.ofDigits_lt_base_pow_length (b := 256) (by decide) (byteDigits_lt (bytes := bytes))

theorem bigEndian_inj {xs ys : List Byte} (hlen : xs.length = ys.length) : bigEndian xs = bigEndian ys ↔ xs = ys := by
  refine ⟨fun h => ?_, congrArg bigEndian⟩
  rw [bigEndian_eq_ofDigits, bigEndian_eq_ofDigits] at h
  have hdigits := Nat.ofDigits_inj_of_len_eq (b := 256) (by decide) (by simpa using hlen) byteDigits_lt byteDigits_lt h
  exact List.map_injective_iff.mpr (fun _ _ => BitVec.eq_of_toNat_eq) (List.reverse_injective hdigits)

theorem OpRow.selects_of_text (r : OpRow) {word text : List Byte} (hword : word ≠ []) (hf : r.format = .linText)
    (hp : r.pattern = bigEndian word) (hm : r.mask = 256 ^ word.length - 1) (hw : r.width = 8 * word.length) :
    r.selects .linText text = decide (text = word) := by
  have hmask : r.mask ≠ 0 := by
    have : 256 ^ 1 ≤ 256 ^ word.length := Nat.pow_le_pow_right (by decide) (List.length_pos_iff.mpr hword)
    omega
  by_cases hlen : word.length = text.length
  · have hand : selectorNumber .linText text &&& r.mask = bigEndian text := by
      rw [hm, hlen, show 256 = 2 ^ 8 from rfl, ← Nat.pow_mul, Nat.and_two_pow_sub_one_eq_mod, Nat.pow_mul]
      exact Nat.mod_eq_of_lt (bigEndian_lt text)
    simp [OpRow.selects, hf, hw, hlen, hand, hp, bigEndian_inj hlen.symm]
  · have hne : text ≠ word := fun h => hlen (congrArg List.length h.symm)
    simp [OpRow.selects, hf, hw, hlen, hmask, hne]

theorem tableMnemonic_linText (c : Config) (text : List Byte) :
    tableMnemonic c .linText text = some (decodeText text).mnemonic := by
  have hHello : OpRow.selects ⟨"LIN.HELLO", .linText, 0x48656C6C6F, 0xFFFFFFFFFF, 40⟩ .linText text =
      decide (text = textHello) := OpRow.selects_of_text _ nofun rfl rfl rfl rfl
  have hDataOff : OpRow.selects ⟨"LIN.DATA_OFF", .linText, 0x6C65642064617461206F6666, 0xFFFFFFFFFFFFFFFFFFFFFFFF, 96⟩
      .linText text = decide (text = textDataOff) := OpRow.selects_of_text _ nofun rfl rfl rfl rfl
  have hDataOn : OpRow.selects ⟨"LIN.DATA_ON", .linText, 0x6C65642064617461206F6E, 0xFFFFFFFFFFFFFFFFFFFFFF, 88⟩
      .linText text = decide (text = textDataOn) := OpRow.selects_of_text _ nofun rfl rfl rfl rfl
  have hErrOff : OpRow.selects ⟨"LIN.ERR_OFF", .linText, 0x6C656420657272206F6666, 0xFFFFFFFFFFFFFFFFFFFFFF, 88⟩
      .linText text = decide (text = textErrOff) := OpRow.selects_of_text _ nofun rfl rfl rfl rfl
  have hErrOn : OpRow.selects ⟨"LIN.ERR_ON", .linText, 0x6C656420657272206F6E, 0xFFFFFFFFFFFFFFFFFFFF, 80⟩
      .linText text = decide (text = textErrOn) := OpRow.selects_of_text _ nofun rfl rfl rfl rfl
  have hNoMatch : OpRow.selects ⟨"LIN.NOMATCH", .linText, 0, 0, 0⟩ .linText text = true := by simp [OpRow.selects]
  simp [tableMnemonic_eq, opRows, firstMnemonic_cons, OpRow.selects_of_format_ne, hHello, hDataOff, hDataOn, hErrOff,
    hErrOn, hNoMatch, mnemonic_decodeText, apply_ite some]

theorem tableMnemonic_frm (c : Config) {bytes : List Byte} {i : Instr} (h : decodeFrm bytes = .ok i) :
    tableMnemonic c .frm bytes = some i.mnemonic := by
  obtain ⟨-, henc⟩ := encode_of_decodeFrm c h
  obtain ⟨t, items, rfl⟩ | ⟨t, str, rfl⟩ | ⟨a, rfl⟩ := Machine.decodeFrm_eq_ok h
  all_goals
    obtain ⟨-, rfl⟩ := Prod.mk.inj henc
    simp [tableMnemonic_eq, opRows, firstMnemonic_cons, OpRow.selects, selectorNumber, Instr.mnemonic]

/-- Settles O46: in each format the rows, in their order, test what the decoder tests. -/
theorem decoderAgreesWithTheOperationMap : Obligations.DecoderAgreesWithTheOperationMap := by
  intro c f bytes i _ hfunc hevent h
  cases f with
  | func => exact absurd rfl hfunc
  | event => exact absurd rfl hevent
  | frm => exact tableMnemonic_frm c h
  | par =>
    obtain ⟨p, b, rfl, rfl⟩ := decodePar_eq_ok h
    exact tableMnemonic_par c p b
  | dsp =>
    obtain ⟨t, d, rfl, rfl⟩ := decodeDsp_eq_ok h
    exact tableMnemonic_dsp c t d
  | linByte =>
    obtain ⟨b, rfl, rfl⟩ := decodeLinByte_eq_ok h
    exact tableMnemonic_linByte c b
  | linText =>
    cases h
    exact tableMnemonic_linText c bytes

end Sys2Proof

namespace Sys2Proof.Machine

/-! ### A selector presented to a state is what its next step runs (log 12) -/

/-- A selector of another format than `PAR` is presented beside the state. -/
theorem step_presentSelector {s : State} (hc : s.cfg.ok = true) {f : Format} {bytes : List Byte} {i : Instr}
    (hf : f ≠ .par) (h : decode s.cfg f bytes = .ok i) : step (s.presentSelector (f, bytes)) = exec i s := by
  cases f with
  | par => exact absurd rfl hf
  | func => exact step_of_decode (s := s.setInq (.funcCall bytes :: s.inq)) hc rfl h
  | frm => exact step_of_decode (s := s.setInq (.frmCmd bytes :: s.inq)) hc rfl h
  | linText => exact step_of_decode (s := s.setInq (.lineCall bytes :: s.inq)) hc rfl h
  | event =>
    obtain ⟨rfl, rfl⟩ := decodeEvent_eq_ok h
    exact step_reset (s := s.setInq (.reset :: s.inq)) hc rfl
  | dsp =>
    obtain ⟨t, d, rfl, rfl⟩ := decodeDsp_eq_ok h
    exact step_dspCall (s := s.setInq (.dspCall t d :: s.inq)) hc rfl
  | linByte =>
    obtain ⟨b, rfl, rfl⟩ := decodeLinByte_eq_ok h
    exact step_conRx (s := s.setInq (.conRx b :: s.inq)) hc rfl

/-- A parser word brings the parser state its code names. -/
theorem step_presentSelector_par {s : State} (hc : s.cfg.ok = true) (p : PState) (b : Byte) :
    step (s.presentSelector (.par, [p.code, b])) = exec (decodeTransition p b) (s.setPstate p) := by
  simp only [State.presentSelector, PState.ofCode_code]
  exact step_linkRx (s := (s.setPstate p).setInq (.linkRx b :: s.inq)) hc rfl

/-- Settles O49: the word's selector is presented as an event of its own format, and that event selects the same
operation. -/
theorem presentedTableWordIsRun : Obligations.PresentedTableWordIsRun := by
  intro nbits w i h
  have hok : State.reset.cfg.ok = true := by decide
  simp only [decodeTableWord] at h
  simp only [SpecText.wordPState, State.withFetchWord]
  generalize tableSelector nbits w = selector at h ⊢
  obtain ⟨f, bytes⟩ := selector
  have hdec : decode State.reset.cfg f bytes = .ok i := by
    split at h
    · rename_i hd
      cases h
      exact hd
    · cases h
  by_cases hf : f = .par
  · subst hf
    obtain ⟨p, b, rfl, rfl⟩ := decodePar_eq_ok hdec
    exact ⟨p, PState.ofCode_code p, step_presentSelector_par hok p b⟩
  · refine ⟨.idle, ?_, step_presentSelector hok hf hdec⟩
    split
    · rename_i heq
      exact absurd (congrArg Prod.fst heq) hf
    · rfl

end Sys2Proof.Machine

namespace Sys2Proof.Machine

open SpecText

/-! ### A whole packet, transition by transition (R84, R152)

The header takes five link bytes, each payload byte a pair of characters; a packet whose payload is written in the hex text
of R78 dispatches exactly those bytes. -/

/-- A run that handles a link byte first: that byte's transition, then the rest. -/
theorem run_linkRx {s u : State} {b : Byte} {rest : List InEvent} (n : Nat) (hc : s.cfg.ok = true)
    (hq : s.inq = .linkRx b :: rest) (hexec : exec (decodeTransition s.pstate b) (s.setInq rest) = .next u) :
    run (n + 1) s = run n u := by
  rw [run_succ, step_linkRx hc hq, hexec, andThen_next]

/-- The header: the tag and the declared length are read, nothing else happens. -/
theorem run_header {s : State} {seq t l1 l0 : Byte} {rest : List InEvent} (hc : s.cfg.ok = true) (hp : s.pstate = .idle)
    (hq : s.inq = [startByte, seq, t, l1, l0].map InEvent.linkRx ++ rest) :
    run 5 s = .next { s with pstate := .payloadNibbleEven, tag := t, length := shiftIn ((dec l1).setWidth 8) l0,
                             inq := rest } := by
  have hstart : exec (decodeTransition s.pstate startByte) (s.setInq ([seq, t, l1, l0].map InEvent.linkRx ++ rest)) =
      .next { s with pstate := .sequenceNumber, inq := [seq, t, l1, l0].map InEvent.linkRx ++ rest } := by
    rw [hp]
    rfl
  calc run 5 s
      = run 4 { s with pstate := .sequenceNumber, inq := [seq, t, l1, l0].map InEvent.linkRx ++ rest } :=
        run_linkRx 4 hc hq hstart
    _ = run 3 { s with pstate := .packetId, inq := [t, l1, l0].map InEvent.linkRx ++ rest } := run_linkRx 3 hc rfl rfl
    _ = run 2 { s with pstate := .payloadSizeHigh, tag := t, inq := [l1, l0].map InEvent.linkRx ++ rest } :=
        run_linkRx 2 hc rfl rfl
    _ = run 1 { s with pstate := .payloadSizeLow, tag := t, length := (dec l1).setWidth 8, inq := .linkRx l0 :: rest } :=
        run_linkRx 1 hc rfl rfl
    _ = _ := run_linkRx 0 hc rfl rfl

/-- The state after a pair of payload characters that give the byte `d`. -/
def pairRead (d : Byte) (rest : List InEvent) (s : State) : State :=
  { s with
    pstate := if s.length - 2#8 = 0#8 then .idle else .payloadNibbleEven
    length := s.length - 2#8
    data := d
    out := s.out ++ .dispatch s.tag d :: dspEvents s.cfg s.tag d
    inq := rest }

/-- A pair of payload characters, when more than one is still to come: one dispatch with its action. -/
theorem run_pair {s : State} {a b : Byte} {rest : List InEvent} (hc : s.cfg.ok = true) (hp : s.pstate = .payloadNibbleEven)
    (hl : s.length ≠ 1#8) (hq : s.inq = .linkRx a :: .linkRx b :: rest) :
    run 2 s = .next (pairRead (shiftIn ((dec a).setWidth 8) b) rest s) := by
  have hmore : s.length - 1#8 ≠ 0#8 := by bv_omega
  have htwo : s.length - 1#8 - 1#8 = s.length - 2#8 := by bv_omega
  have heven : exec (decodeTransition s.pstate a) (s.setInq (.linkRx b :: rest)) =
      .next { s with pstate := .payloadNibbleOdd, length := s.length - 1#8, data := (dec a).setWidth 8,
                     inq := .linkRx b :: rest } := by
    simp only [hp, decodeTransition, exec, execParEven, countNibble, State.setData_length, State.setInq_length, hmore,
      if_false]
    rfl
  rw [run_linkRx 1 hc hq heven]
  refine run_linkRx 0 hc rfl ((execParOdd_eq b _).trans ?_)
  simp only [countNibble, pairRead, State.emitAll_length, State.setData_length, State.setInq_length, htwo]
  rfl

/-! ### Hex text read back (R78) -/

theorem dec_hexDigit (n : Nibble) : dec (BitVec.ofNat 8 (hexDigit n.toNat)) = n := by
  revert n
  decide

theorem nibbles_eq (v : Byte) : ((hiNibble v).setWidth 8 <<< 4) ||| (loNibble v).setWidth 8 = v := by
  ext i hi
  simp only [hiNibble, loNibble, BitVec.getElem_or, BitVec.getElem_shiftLeft, BitVec.getElem_setWidth,
    BitVec.getLsbD_extractLsb']
  by_cases h : i < 4
  · simp [h, BitVec.getLsbD_eq_getElem hi]
  · simp [h, BitVec.getLsbD_eq_getElem hi, show i - 4 < 4 by omega, show 4 + (i - 4) = i by omega]

/-- The two characters of a byte, shifted in one after the other, give the byte. -/
theorem hexText_read (v : Byte) : ∃ a b, hexText v.toNat = [a, b] ∧ shiftIn ((dec a).setWidth 8) b = v := by
  refine ⟨BitVec.ofNat 8 (hexDigit (hiNibble v).toNat), BitVec.ofNat 8 (hexDigit (loNibble v).toNat), ?_, ?_⟩
  · simp [hexText, hiNibble, loNibble, Nat.shiftRight_eq_div_pow]
  · rw [shiftIn, dec_hexDigit, dec_hexDigit, nibbles_eq]

/-- The characters of a byte, read as a pair, give the byte. -/
theorem run_pair_hexText {s : State} {d : Byte} {rest : List InEvent} (hc : s.cfg.ok = true)
    (hp : s.pstate = .payloadNibbleEven) (hl : s.length ≠ 1#8)
    (hq : s.inq = (hexText d.toNat).map InEvent.linkRx ++ rest) : run 2 s = .next (pairRead d rest s) := by
  obtain ⟨a, b, htext, hread⟩ := hexText_read d
  rw [htext] at hq
  rw [run_pair (rest := rest) hc hp hl hq, hread]

/-- A payload of whole bytes: each is dispatched in order, and the parser is in `Idle` when they are counted out. -/
theorem run_payload {s : State} {bytes : List Byte} {rest : List InEvent} (hc : s.cfg.ok = true)
    (hp : s.pstate = if s.length = 0#8 then .idle else .payloadNibbleEven) (hl : s.length.toNat = 2 * bytes.length)
    (hq : s.inq = (bytes.flatMap fun d => hexText d.toNat).map InEvent.linkRx ++ rest) :
    ∃ u, run (2 * bytes.length) s = .next u ∧ u.pstate = .idle ∧ u.inq = rest ∧
      u.out = s.out ++ bytes.flatMap fun d => .dispatch s.tag d :: dspEvents s.cfg s.tag d := by
  induction bytes generalizing s with
  | nil =>
    have hzero : s.length = 0#8 := BitVec.eq_of_toNat_eq hl
    exact ⟨s, rfl, by rw [hp, if_pos hzero], hq, (List.append_nil _).symm⟩
  | cons d bytes ih =>
    rw [List.length_cons] at hl
    have heven : s.pstate = .payloadNibbleEven := by rw [hp, if_neg (by bv_omega)]
    have hlength : (s.length - 2#8).toNat = 2 * bytes.length := by bv_omega
    have hpair : run 2 s = .next (pairRead d ((bytes.flatMap fun d => hexText d.toNat).map InEvent.linkRx ++ rest) s) :=
      run_pair_hexText hc heven (by bv_omega) (by simpa using hq)
    obtain ⟨u, hrun, hidle, hinq, hout⟩ := ih (s := pairRead d _ s) hc rfl hlength rfl
    refine ⟨u, ?_, hidle, hinq, ?_⟩
    · rw [List.length_cons, show 2 * (bytes.length + 1) = 2 + 2 * bytes.length by omega, run_add, hpair]
      exact hrun
    · rw [hout]
      simp [pairRead]

/-- A packet of 1 to 127 whole bytes dispatches each of them under its tag. -/
theorem run_packet {s : State} {seq t : Byte} {bytes : List Byte} {rest : List InEvent} (hc : s.cfg.ok = true)
    (hp : s.pstate = .idle) (hpos : 1 ≤ bytes.length) (hmax : bytes.length ≤ 127)
    (hq : s.inq = ([startByte, seq, t] ++ hexText (2 * bytes.length) ++
      bytes.flatMap fun d => hexText d.toNat).map InEvent.linkRx ++ rest) :
    ∃ u, run (5 + 2 * bytes.length) s = .next u ∧ u.pstate = .idle ∧ u.inq = rest ∧
      u.out = s.out ++ bytes.flatMap fun d => .dispatch t d :: dspEvents s.cfg t d := by
  obtain ⟨n, hn⟩ : ∃ n : Byte, n.toNat = 2 * bytes.length := ⟨BitVec.ofNat 8 (2 * bytes.length), by simp; omega⟩
  obtain ⟨l1, l0, htext, hread⟩ := hexText_read n
  have hheader := run_header (seq := seq) (t := t) (l1 := l1) (l0 := l0)
    (rest := (bytes.flatMap fun d => hexText d.toNat).map InEvent.linkRx ++ rest) hc hp
    (by simpa [← hn, htext] using hq)
  have hnonzero : n ≠ 0#8 := by bv_omega
  rw [run_add, hheader, andThen_next, hread]
  exact run_payload hc (if_neg hnonzero).symm hn rfl

/-- Settles O22: all five packets are packets of whole bytes. -/
theorem namedPacketsDoWhatTheyName : Obligations.NamedPacketsDoWhatTheyName := by
  intro s seq rest hc hp
  refine ⟨fun v target value hv hq => ?_, fun bytes hpos hmax hq => ?_⟩
  · have hevents : (BitVec.ofNat 8 v).toNat = v ∧ dspEvents s.cfg tagLed (BitVec.ofNat 8 v) = [.act target value] := by
      simp only [List.mem_cons, List.not_mem_nil, or_false, Prod.mk.injEq] at hv
      obtain ⟨rfl, rfl, rfl⟩ | ⟨rfl, rfl, rfl⟩ | ⟨rfl, rfl, rfl⟩ | ⟨rfl, rfl, rfl⟩ := hv
      all_goals exact ⟨rfl, rfl⟩
    obtain ⟨hbyte, hact⟩ := hevents
    have htext : ascii ['L', '0', '2'] = tagLed :: hexText 2 := by decide
    obtain ⟨u, hrun, hidle, hinq, hout⟩ := run_packet (seq := seq) (t := tagLed) (bytes := [BitVec.ofNat 8 v])
      (rest := rest) hc hp (Nat.le_refl 1) (Nat.le_add_left 1 126) (by simpa [startByte, htext, hbyte] using hq)
    rw [List.flatMap_singleton, hact] at hout
    exact ⟨u, hrun, hidle, hinq, hout⟩
  · have htag : s.cfg.tagSerial ≠ tagLed := by
      simp only [Config.ok, Bool.and_eq_true, decide_eq_true_eq] at hc
      exact hc.2
    obtain ⟨u, hrun, hidle, hinq, hout⟩ := run_packet hc hp hpos hmax hq
    exact ⟨u, hrun, hidle, hinq, by simpa [dspEvents, htag] using hout⟩

end Sys2Proof.Machine

namespace Sys2Proof.Machine

open SpecText

/-! ### The hex codec (R100 to R103)

Each direction once as a formula over numbers. Outside the digits `dec` reads only the low nibble, so a lowercase letter
decodes as its uppercase one, and a row of R102's table other than `3x` holds every nibble value exactly once. -/

theorem exec_hexEnc (n : Nibble) (s : State) : exec (.hexEnc n) s = .next (s.setRet (.byte (enc n))) := rfl

theorem exec_hexDec (c : Byte) (s : State) : exec (.hexDec c) s = .next (s.setRet (.nibble (dec c))) := rfl

theorem toNat_enc (n : Nibble) : (enc n).toNat = hexDigit n.toNat := by
  simp only [enc, hexDigit, BitVec.le_def, BitVec.toNat_ofNat]
  split
  · bv_omega
  · bv_omega

theorem enc_eq_hexDigit (n : Nibble) : enc n = BitVec.ofNat 8 (hexDigit n.toNat) := by
  rw [← toNat_enc, BitVec.ofNat_toNat, BitVec.setWidth_eq]

/-- Settles O1: the executor's answer with `enc` in its formula over numbers. -/
theorem hexEncGivesUppercaseDigit : Obligations.HexEncGivesUppercaseDigit := by
  intro n s
  rw [exec_hexEnc, enc_eq_hexDigit]
  rfl

/-- The low 4 bits of an integer in two's complement are its remainder by 16 (R101, D4). -/
theorem ofInt_eq_ofNat_emod (w : Int) : BitVec.ofInt 4 w = BitVec.ofNat 4 (w % 16).toNat := by
  apply BitVec.eq_of_toNat_eq
  simp only [BitVec.toNat_ofInt, BitVec.toNat_ofNat]
  omega

theorem dec_eq_digitValue (c : Byte) : dec c = BitVec.ofNat 4 (digitValue c) := by
  simp only [dec, digitValue, BitVec.le_def, BitVec.toNat_ofNat]
  split
  · bv_omega
  · rw [ofInt_eq_ofNat_emod, BitVec.toNat_and]
    rfl

/-- Settles O2: the executor's answer with `dec` in its formula over numbers. -/
theorem hexDecGivesDigitValue : Obligations.HexDecGivesDigitValue := by
  intro c s
  rw [exec_hexDec, dec_eq_digitValue]
  rfl

/-- R103's own law. -/
@[simp] theorem dec_enc (n : Nibble) : dec (enc n) = n := by
  rw [enc_eq_hexDigit, dec_hexDigit]

/-- Exactly the digits and the uppercase letters are encodings. -/
theorem exists_enc_eq_iff (c : Byte) :
    (∃ n, enc n = c) ↔ (0x30 ≤ c.toNat ∧ c.toNat ≤ 0x39) ∨ (0x41 ≤ c.toNat ∧ c.toNat ≤ 0x46) := by
  constructor
  · rintro ⟨n, rfl⟩
    rw [toNat_enc, hexDigit]
    split <;> omega
  · rintro (hdigit | hletter)
    · refine ⟨BitVec.ofNat 4 (c.toNat - 0x30), BitVec.eq_of_toNat_eq ?_⟩
      rw [toNat_enc, hexDigit, BitVec.toNat_ofNat, Nat.mod_eq_of_lt (by omega), if_pos (by omega)]
      omega
    · refine ⟨BitVec.ofNat 4 (c.toNat - 0x37), BitVec.eq_of_toNat_eq ?_⟩
      rw [toNat_enc, hexDigit, BitVec.toNat_ofNat, Nat.mod_eq_of_lt (by omega), if_neg (by omega)]
      omega

/-- A decoded byte encodes to itself exactly when it is an encoding at all. -/
theorem enc_dec_eq_iff (c : Byte) :
    enc (dec c) = c ↔ (0x30 ≤ c.toNat ∧ c.toNat ≤ 0x39) ∨ (0x41 ≤ c.toNat ∧ c.toNat ≤ 0x46) := by
  rw [← exists_enc_eq_iff]
  constructor
  · exact fun h => ⟨dec c, h⟩
  · rintro ⟨n, rfl⟩
    rw [dec_enc]

/-- R101's closed form of the second branch: `(c[3:0] + 9) mod 16`. -/
theorem dec_of_not_digit {c : Byte} (h : ¬(0x30 ≤ c.toNat ∧ c.toNat ≤ 0x39)) :
    dec c = BitVec.ofNat 4 (c.toNat + 9) := by
  have hlow : (c.toNat &&& 0x5F) % 16 = c.toNat % 16 := by
    rw [Nat.and_mod_two_pow (n := 4)]
    exact (Nat.and_two_pow_sub_one_eq_mod _ 4).trans (Nat.mod_mod _ _)
  rw [dec_eq_digitValue, digitValue, if_neg h]
  apply BitVec.eq_of_toNat_eq
  simp only [BitVec.toNat_ofNat]
  omega

/-- A lowercase letter decodes as its uppercase one, which encoding gives back. -/
theorem toNat_enc_dec_lowercase {c : Byte} (hlow : 0x61 ≤ c.toNat) (hhigh : c.toNat ≤ 0x66) :
    (enc (dec c)).toNat = c.toNat - 0x20 := by
  have hupper : (c - 0x20#8).toNat = c.toNat - 0x20 := by bv_omega
  have hsame : dec c = dec (c - 0x20#8) := by
    rw [dec_of_not_digit (by omega), dec_of_not_digit (by omega), hupper]
    bv_omega
  rw [hsame, (enc_dec_eq_iff _).2 (by omega), hupper]

/-! ### Preimages, row by row of R102's table -/

/-- How many bytes of the row `r` (those of high nibble `r`) satisfy `p`. -/
def rowCount (p : Nat → Bool) (r : Nat) : Nat := (List.range 16).countP fun k => p (16 * r + k)

theorem length_filter_range_eq_sum_rowCount (p : Nat → Bool) (n : Nat) :
    ((List.range (16 * n)).filter p).length = ((List.range n).map (rowCount p)).sum := by
  rw [← List.countP_eq_length_filter]
  induction n with
  | zero => rfl
  | succ n ih =>
    rw [Nat.mul_succ, List.range_add, List.countP_append, ih, List.countP_map, List.range_succ (n := n),
      List.map_append, List.sum_append, List.map_singleton, List.sum_singleton]
    rfl

/-- Where every row but `3x` holds one byte of `p`, there are 15 of them beside those of row `3x`. -/
theorem length_filter_range_of_rows {p : Nat → Bool} (h : ∀ r < 16, r ≠ 3 → rowCount p r = 1) :
    ((List.range 256).filter p).length = 15 + rowCount p 3 := by
  have hrow : ∀ r ∈ List.range 16, rowCount p r = if r = 3 then rowCount p 3 else 1 := by
    intro r hr
    split
    · next h3 => rw [h3]
    · next h3 => exact h r (List.mem_range.1 hr) h3
  rw [length_filter_range_eq_sum_rowCount p 16, List.map_congr_left hrow]
  simp +arith [List.range_succ]

/-- In a row other than `3x` the nine-shifted low nibbles run through all values once. -/
theorem rowCount_dec {r : Nat} (hr : r < 16) (h3 : r ≠ 3) (v : Nibble) :
    rowCount (fun c => dec (BitVec.ofNat 8 c) = v) r = 1 := by
  have hcolumn : ∀ k ∈ List.range 16, dec (BitVec.ofNat 8 (16 * r + k)) = BitVec.ofNat 4 (k + 9) := by
    intro k hk
    have hk : k < 16 := List.mem_range.1 hk
    rw [dec_of_not_digit]
    · bv_omega
    · rw [BitVec.toNat_ofNat]
      omega
  have honce : ∀ v : Nibble, (List.range 16).countP (fun k => BitVec.ofNat 4 (k + 9) = v) = 1 := by decide
  rw [← honce v]
  exact List.countP_congr fun k hk => by simp only [hcolumn k hk]

/-- Row `3x`: a digit for each value up to 9, and the bytes 0x3A to 0x3F for the values 3 to 8. -/
theorem rowCount_dec_three (v : Nibble) :
    rowCount (fun c => dec (BitVec.ofNat 8 c) = v) 3 =
      (if 3 ≤ v.toNat ∧ v.toNat ≤ 8 then 1 else 0) + (if v.toNat ≤ 9 then 1 else 0) := by
  revert v
  decide

theorem length_preimages (v : Nibble) :
    ((List.range 256).filter fun c => decide (dec (BitVec.ofNat 8 c) = v)).length =
      15 + (if 3 ≤ v.toNat ∧ v.toNat ≤ 8 then 1 else 0) + (if v.toNat ≤ 9 then 1 else 0) := by
  rw [length_filter_range_of_rows fun r hr h3 => rowCount_dec hr h3 v, rowCount_dec_three, Nat.add_assoc]

theorem length_preimages_outside_row_three (v : Nibble) :
    ((List.range 256).filter fun c => decide ((c < 0x30 ∨ 0x3F < c) ∧ dec (BitVec.ofNat 8 c) = v)).length = 15 := by
  rw [length_filter_range_of_rows]
  · have hnone : rowCount (fun c => (c < 0x30 ∨ 0x3F < c) ∧ dec (BitVec.ofNat 8 c) = v) 3 = 0 := by
      refine List.countP_eq_zero.2 fun k hk hp => ?_
      have hk : k < 16 := List.mem_range.1 hk
      obtain ⟨houtside, -⟩ := of_decide_eq_true hp
      omega
    rw [hnone]
  · intro r hr h3
    rw [← rowCount_dec hr h3 v]
    refine List.countP_congr fun k hk => ?_
    have hk : k < 16 := List.mem_range.1 hk
    have houtside : 16 * r + k < 0x30 ∨ 0x3F < 16 * r + k := by omega
    simp only [houtside, true_and]

/-- Settles O3: R103's law, the bytes that are encodings, lowercase through uppercase, and the count by rows. -/
theorem hexCodecLaw : Obligations.HexCodecLaw := by
  refine ⟨fun n s => ⟨s.setRet (.byte (enc n)), enc n, exec_hexEnc n s, rfl, ?_⟩, enc_dec_eq_iff,
    fun _ => toNat_enc_dec_lowercase, fun v => ⟨length_preimages_outside_row_three v, length_preimages v⟩⟩
  rw [exec_hexDec, dec_enc]
  rfl

end Sys2Proof.Machine

namespace Sys2Proof.Machine

open SpecText

/-! ### The serializer (R110 to R112)

The characters it writes are R78's text of the operand's number, and that text reads back as the number. -/

@[simp] theorem toNat_hiNibble (v : Byte) : (hiNibble v).toNat = v.toNat / 16 := by
  simp only [hiNibble, BitVec.extractLsb'_toNat, Nat.shiftRight_eq_div_pow]
  omega

@[simp] theorem toNat_loNibble (v : Byte) : (loNibble v).toNat = v.toNat % 16 := by
  simp [loNibble]

@[simp] theorem toNat_loByte (v : Word16) : (loByte v).toNat = v.toNat % 256 := by
  simp [loByte]

@[simp] theorem toNat_hiByte (v : Word16) : (hiByte v).toNat = v.toNat / 256 := by
  simp only [hiByte, BitVec.extractLsb'_toNat, Nat.shiftRight_eq_div_pow]
  omega

theorem hexOfByte_eq_hexText (v : Byte) : hexOfByte v = hexText v.toNat := by
  have hhigh : v.toNat / 16 % 16 = v.toNat / 16 := by omega
  rw [hexOfByte, enc_eq_hexDigit, enc_eq_hexDigit, toNat_hiNibble, toNat_loNibble, hexText, hhigh]

theorem itemChars_eq_itemText (item : Item) : itemChars item = itemText item := by
  cases item with
  | byte v => exact hexOfByte_eq_hexText v
  | word v =>
    rw [itemChars, hexOfByte_eq_hexText, hexOfByte_eq_hexText, toNat_loByte, toNat_hiByte]
    rfl

/-- R101's formula undoes R100's. -/
theorem digitValue_enc (n : Nibble) : digitValue (enc n) = n.toNat := by
  have hlt : digitValue (enc n) < 16 := by
    rw [digitValue]
    split <;> omega
  have hdec : BitVec.ofNat 4 (digitValue (enc n)) = n := by rw [← dec_eq_digitValue, dec_enc]
  have hnat := congrArg BitVec.toNat hdec
  rwa [BitVec.toNat_ofNat, Nat.mod_eq_of_lt hlt] at hnat

/-- The format's law for a byte: its two characters, high digit first, give it back (R53, R78). -/
theorem digitValue_pair (v : Byte) : 16 * digitValue (enc (hiNibble v)) + digitValue (enc (loNibble v)) = v.toNat := by
  rw [digitValue_enc, digitValue_enc, toNat_hiNibble, toNat_loNibble, Nat.div_add_mod]

theorem exec_serByte (v : Byte) (s : State) : exec (.serByte v) s = pbufAppend (hexText v.toNat) s := by
  rw [← hexOfByte_eq_hexText]
  rfl

theorem exec_serWord (v : Word16) (s : State) : exec (.serWord v) s = pbufAppend (wordText v.toNat) s :=
  (execSerWord_eq v s).trans (by rw [itemChars_eq_itemText, itemText])

theorem exec_serChar (ch : Byte) (s : State) : exec (.serChar ch) s = .next (s.emitLink (hexText ch.toNat)) := by
  rw [← hexOfByte_eq_hexText]
  rfl

/-- Settles O5: the word's text is its four digits, two for each byte, appended as one text. -/
theorem serWordAppendsLowByteFirst : Obligations.SerWordAppendsLowByteFirst := by
  intro v s
  rw [exec_serWord]
  have htext :
      [enc (hiNibble (loByte v)), enc (loNibble (loByte v)), enc (hiNibble (hiByte v)), enc (loNibble (hiByte v))] =
        wordText v.toNat := itemChars_eq_itemText (.word v)
  refine ⟨fun hroom => ⟨_, _, _, _, ?_, htext, ?_⟩, fun hfull => pbufAppend_of_gt hfull⟩
  · rw [htext]
    exact pbufAppend_of_le hroom
  · rw [digitValue_pair, digitValue_pair, toNat_loByte, toNat_hiByte, Nat.div_add_mod]

/-- Settles O4: the byte's text is two characters long, so each clause is one case of the append's capacity test. -/
theorem serByteAppendsTwoCharacters : Obligations.SerByteAppendsTwoCharacters := by
  intro v s
  rw [exec_serByte]
  exact ⟨fun hroom => pbufAppend_of_le hroom, fun hfull => pbufAppend_of_gt hfull⟩

/-- Settles O6: the executor emits the character's text and leaves every other field. -/
theorem serCharGoesStraightToTheLink : Obligations.SerCharGoesStraightToTheLink :=
  exec_serChar

end Sys2Proof.Machine

namespace Sys2Proof.Machine

open SpecText

/-! ### The derived values (R125 to R128)

Each value read as a number, for the calls made alone and for the sub-fields of the aggregated packet. -/

@[simp] theorem toNat_buttonValue (btn : Bit) : (buttonValue btn).toNat = 1 - btn.toNat := by
  decide +revert

@[simp] theorem toNat_ledValue (conn eled dled : Bit) :
    (ledValue conn eled dled).toNat = 4 * conn.toNat + 2 * eled.toNat + (1 - dled.toNat) := by
  decide +revert

@[simp] theorem toNat_gpioValue (gpio1 gpio2 : Bit) :
    (gpioValue gpio1 gpio2).toNat = 2 * gpio2.toNat + gpio1.toNat := by
  decide +revert

@[simp] theorem toNat_axisValue (a : Word16) : (axisValue a).toNat = a.toNat % 0x1000 := by
  rw [axisValue, BitVec.toNat_and]
  exact Nat.and_two_pow_sub_one_eq_mod a.toNat 12

/-- Settles O7: each call leaves its value in `ret`, and the value is the byte or word of its number. -/
theorem derivedValuesKeepTheirPolarity : Obligations.DerivedValuesKeepTheirPolarity := by
  intro s
  have hbyte {v : Byte} {n : Nat} (h : v.toNat = n) :
      (.next (s.setRet (.byte v)) : Result) = .next (s.setRet (.byte (BitVec.ofNat 8 n))) := by
    rw [(BitVec.toNat_eq_nat.mp h).2]
  refine ⟨fun btn => hbyte (toNat_buttonValue btn), fun conn eled dled => hbyte (toNat_ledValue conn eled dled),
    fun gpio1 gpio2 => hbyte (toNat_gpioValue gpio1 gpio2), fun a => ?_⟩
  rw [← toNat_axisValue, BitVec.ofNat_toNat, BitVec.setWidth_eq]
  rfl

/-! ### Single and string packets (R120 to R122) -/

/-- A packet of one tag on the link: `{`, the tag, `,`, the payload, `}`, CR, LF (R73, R75). -/
def taggedPacket (t : Byte) (payload : List Byte) : List Byte :=
  [startByte, t, sepSingle] ++ payload ++ [endByte, crByte, lfByte]

theorem flatMap_itemChars (items : List Item) : items.flatMap itemChars = items.flatMap itemText :=
  List.flatMap_congr fun item _ => itemChars_eq_itemText item

theorem flatMap_hexOfByte (str : List Byte) : str.flatMap hexOfByte = str.flatMap fun ch => hexText ch.toNat :=
  List.flatMap_congr fun ch _ => hexOfByte_eq_hexText ch

theorem andThen_ite_refused (p : Prop) [Decidable p] (s : State) (e : Refusal) (k : State → Result) :
    andThen (if p then .next s else .refused e) k = if p then k s else .refused e := by
  split_ifs <;> rfl

/-- A command clears `pbuf` first, so what stood there does not count against the capacity (R123). -/
theorem serItems_setPbuf_nil (items : List Item) (s : State) :
    serItems items (s.setPbuf []) = if (items.flatMap itemText).length ≤ s.cfg.payloadCap
      then .next (s.setPbuf (items.flatMap itemText)) else .refused .payloadOverflow := by
  rw [serItems_eq _ _ (Nat.zero_le _), flatMap_itemChars]
  simp only [State.plen_eq, State.setPbuf_pbuf, State.setPbuf_cfg, State.setPbuf_setPbuf, List.length_nil, Nat.zero_add,
    List.nil_append]

theorem exec_frmSingle (t : Byte) (items : List Item) (s : State) :
    exec (.frmSingle t items) s = if (items.flatMap itemText).length ≤ s.cfg.payloadCap
      then .next ((s.setPbuf []).emitLink (taggedPacket t (items.flatMap itemText))) else .refused .payloadOverflow := by
  show execFrmSingle t items s = _
  rw [execFrmSingle, serItems_setPbuf_nil, andThen_ite_refused]
  simp [closeFrame, taggedPacket]

theorem exec_frmString (t : Byte) (str : List Byte) (s : State) : exec (.frmString t str) s =
    .next ((s.setPbuf []).emitLink (taggedPacket t (str.flatMap fun ch => hexText ch.toNat))) := by
  show execFrmString t str s = _
  rw [execFrmString, serChars_eq, andThen_next, flatMap_hexOfByte]
  simp [closeFrame, taggedPacket]

/-- Settles O8: the two clauses are the two sides of the capacity test. -/
theorem singlePacketBytes : Obligations.SinglePacketBytes := by
  intro t items s
  rw [exec_frmSingle]
  exact ⟨fun hroom => if_pos hroom, fun hfull => if_neg (Nat.not_le.mpr hfull)⟩

/-- Settles O9: the characters go out one by one between the opening and the closing of the frame. -/
theorem stringPacketBytes : Obligations.StringPacketBytes :=
  exec_frmString

/-! ### The aggregated packet (R74, R124) -/

/-- A sub-field on the link: tag, `:`, payload, `,`. -/
def subFieldBytes (t : Byte) (payload : List Byte) : List Byte := [t, sepKey] ++ payload ++ [sepSingle]

/-- The bytes of the aggregated packet: they depend on the parameters and the operands only. -/
def aggPacket (c : Config) (a : AggOperands) : List Byte :=
  [startByte] ++
  subFieldBytes c.tagButton (hexText (1 - a.btn.toNat)) ++
  subFieldBytes tagLed (hexText (4 * a.conn.toNat + 2 * a.eled.toNat + (1 - a.dled.toNat))) ++
  subFieldBytes c.tagGpio (hexText (2 * a.gpio2.toNat + a.gpio1.toNat)) ++
  subFieldBytes c.tagTemp (wordText a.temp.toNat) ++
  subFieldBytes c.tagAccel (wordText (a.ax.toNat % 0x1000) ++ wordText (a.ay.toNat % 0x1000) ++
    wordText (a.az.toNat % 0x1000)) ++
  [endByte, crByte, lfByte]

/-- A sub-field is sent exactly when its own payload fits. -/
theorem subField_eq_ite (t : Byte) (items : List Item) (s : State) :
    subField t items s = if (items.flatMap itemText).length ≤ s.cfg.payloadCap
      then .next ((s.emitLink (subFieldBytes t (items.flatMap itemText))).setPbuf (items.flatMap itemText))
      else .refused .payloadOverflow := by
  rw [subField, serItems_setPbuf_nil, andThen_ite_refused]
  simp [subFieldBytes]

@[simp] theorem length_hexText (v : Nat) : (hexText v).length = 2 := rfl

@[simp] theorem length_wordText (v : Nat) : (wordText v).length = 4 := rfl

/-- The acceleration, three words, is the widest sub-field: the command is sent when it fits and refused when it does
not, for then it or an earlier sub-field is. -/
theorem exec_frmAgg (a : AggOperands) (s : State) : exec (.frmAgg a) s = if 12 ≤ s.cfg.payloadCap
    then .next ((s.setPbuf []).emitLink (aggPacket s.cfg a)) else .refused .payloadOverflow := by
  show execFrmAgg a s = _
  simp only [execFrmAgg, subField_eq_ite, andThen_ite_refused]
  by_cases hroom : 12 ≤ s.cfg.payloadCap
  · have htwo : 2 ≤ s.cfg.payloadCap := by omega
    have hfour : 4 ≤ s.cfg.payloadCap := by omega
    simp [hroom, htwo, hfour, itemText, closeFrame, aggPacket, subFieldBytes]
  · simp [hroom, itemText]

/-- Settles O10: the packet is sent as R124 lists it, and every sub-field of it has its fixed width. -/
theorem aggregatedPacketBytes : Obligations.AggregatedPacketBytes := by
  intro a s hroom
  refine ⟨aggPacket s.cfg a, by rw [exec_frmAgg, if_pos hroom]; rfl, rfl, ?_⟩
  simp [aggPacket, subFieldBytes, startByte, sepKey, tagLed, sepSingle, endByte, crByte, lfByte]

/-! ### What a framer command reads (R123) -/

/-- Settles O11: whether a command is sent and what it sends depend on its operands and the parameters only. -/
theorem framerReadsAndWritesNoRegister : Obligations.FramerReadsAndWritesNoRegister := by
  rintro _ s t (⟨tag, items, rfl⟩ | ⟨tag, str, rfl⟩ | ⟨a, rfl⟩) h
  · rw [exec_frmSingle] at h
    split_ifs at h with hroom
    exact ⟨_, fun u hu => (exec_frmSingle tag items u).trans (if_pos (by rwa [hu]))⟩
  · exact ⟨_, fun u _ => exec_frmString tag str u⟩
  · rw [exec_frmAgg] at h
    split_ifs at h with hroom
    refine ⟨aggPacket s.cfg a, fun u hu => ?_⟩
    have hsent : exec (.frmAgg a) u = .next ((u.setPbuf []).emitLink (aggPacket s.cfg a)) := by
      rw [exec_frmAgg, hu, if_pos hroom]
    exact hsent

/-! ### The refusals at the boundary (R122) -/

theorem decodeFrm_of_wide_selector {sel : Byte} (h : 4 ≤ sel.toNat) (ops : List Byte) :
    decodeFrm (sel :: ops) = .error .selectorTooWide := by
  obtain ⟨n, hn⟩ := Nat.exists_eq_add_of_le' h
  simp [decodeFrm, hn]

/-- A flag is too wide, or whatever it says a later one is: the request is refused for its operand either way. -/
theorem decodeBit_bind_of_wide {b : Byte} {f : Bit → Except DecodeError Instr}
    (h : 2 ≤ b.toNat ∨ ∀ v, f v = .error .operandTooWide) : (decodeBit b >>= f) = .error .operandTooWide := by
  unfold decodeBit
  split_ifs with hzero hone
  · subst hzero
    exact (h.resolve_left (by decide)) _
  · subst hone
    exact (h.resolve_left (by decide)) _
  · rfl

theorem decodeAgg_of_wide_flag {flags ops : List Byte} (hflags : flags.length = 6) (hops : ops.length = 8)
    (hwide : ∃ f ∈ flags, 2 ≤ f.toNat) : decodeAgg (flags ++ ops) = .error .operandTooWide := by
  match flags, hflags, ops, hops with
  | [btn, conn, eled, dled, gpio1, gpio2], _, [tl, th, xl, xh, yl, yh, zl, zh], _ =>
    simp only [List.mem_cons, List.not_mem_nil, or_false, exists_eq_or_imp, exists_eq_left] at hwide
    exact decodeBit_bind_of_wide <| hwide.imp_right fun hwide _ =>
      decodeBit_bind_of_wide <| hwide.imp_right fun hwide _ =>
      decodeBit_bind_of_wide <| hwide.imp_right fun hwide _ =>
      decodeBit_bind_of_wide <| hwide.imp_right fun hwide _ =>
      decodeBit_bind_of_wide <| hwide.imp_right fun hwide _ =>
      decodeBit_bind_of_wide <| .inl hwide

/-- Settles O12: three of the requests are refused by the decoder, the fourth names a packet that O8 refuses. -/
theorem framerBoundaryRefusals : Obligations.FramerBoundaryRefusals := by
  intro s rest hc
  refine ⟨fun ops hq => ?_, fun sel ops hsel hq => ?_, fun flags ops hflags hops hwide hq => ?_,
    fun t items hfull hq => ?_⟩
  · exact step_of_decode_error hc hq rfl
  · exact step_of_decode_error hc hq (decodeFrm_of_wide_selector hsel ops)
  · exact step_of_decode_error hc hq (decodeAgg_of_wide_flag hflags hops hwide)
  · rw [step_of_decode hc hq (Laws.RoundTrip.frmSingle t items s.cfg rfl)]
    exact (singlePacketBytes t items (s.setInq rest)).2 hfull

end Sys2Proof.Machine

namespace Sys2Proof.Machine

open SpecText

/-! ### The parser over numbers (R141 to R148)

What the transitions compute, in the formulas of R101 and R145 to R148; the dispatcher's events in R170's. -/

theorem digitValue_lt (c : Byte) : digitValue c < 16 := by
  rw [digitValue]
  split <;> omega

theorem toNat_dec (c : Byte) : (dec c).toNat = digitValue c := by
  rw [dec_eq_digitValue, BitVec.toNat_ofNat, Nat.mod_eq_of_lt (digitValue_lt c)]

@[simp] theorem digitValue_mod_byte (c : Byte) : digitValue c % 256 = digitValue c :=
  Nat.mod_eq_of_lt ((digitValue_lt c).trans (by decide))

theorem dec_setWidth_eq (c : Byte) : (dec c).setWidth 8 = BitVec.ofNat 8 (digitValue c) := by
  rw [← toNat_dec, BitVec.ofNat_toNat]

/-- The shifted register leaves its low four bits free for the digit, so the two are added. -/
theorem toNat_shiftIn (x c : Byte) : (shiftIn x c).toNat = (16 * x.toNat + digitValue c) % 256 := by
  have hlt := digitValue_lt c
  have hshift : (x <<< 4).toNat = (x.toNat % 16) <<< 4 := by
    rw [BitVec.toNat_shiftLeft, Nat.shiftLeft_eq, Nat.shiftLeft_eq]
    omega
  have hdigit : ((dec c).setWidth 8).toNat = digitValue c := by
    rw [BitVec.toNat_setWidth_of_le (by decide), toNat_dec]
  rw [shiftIn, BitVec.toNat_or, hshift, hdigit, ← Nat.shiftLeft_add_eq_or_of_lt hlt, Nat.shiftLeft_eq]
  omega

theorem shiftIn_eq (x c : Byte) : shiftIn x c = BitVec.ofNat 8 (16 * x.toNat + digitValue c) :=
  BitVec.eq_of_toNat_eq (toNat_shiftIn x c)

theorem dspEvents_eq_dispatcherOutput (c : Config) (t d : Byte) : dspEvents c t d = dispatcherOutput c t d := by
  have hled : d.getLsbD 4 = decide (d.toNat / 16 % 2 = 1) := Nat.testBit_eq_decide_div_mod_eq
  have hvalue : d.getLsbD 0 = decide (d.toNat % 2 = 1) := Nat.testBit_zero d.toNat
  simp only [dspEvents, dispatcherOutput, tagLed, hled, hvalue]
  obtain hl | hl := Nat.mod_two_eq_zero_or_one (d.toNat / 16) <;>
    obtain hv | hv := Nat.mod_two_eq_zero_or_one d.toNat <;> simp [hl, hv]

/-- R157 tests the length after the count, R147 and R148 the length before it. -/
theorem ite_countdown_eq_zero (l : Byte) (p q : PState) :
    (if (l.toNat + 255) % 256 = 0 then p else q) = if l.toNat = 1 then p else q :=
  if_congr (by bv_omega) rfl rfl

theorem countNibble_eq (p : PState) (s : State) :
    countNibble p s = { s with length := BitVec.ofNat 8 (s.length.toNat + 255),
                               pstate := if s.length.toNat = 1 then .idle else p } := by
  have hlength : s.length - 1#8 = BitVec.ofNat 8 (s.length.toNat + 255) := by bv_omega
  have hlast : s.length - 1#8 = 0#8 ↔ s.length.toNat = 1 := by bv_omega
  simp only [countNibble, hlast]
  rw [hlength]
  rfl

/-! ### The transitions one by one -/

theorem exec_parLenHi (b : Byte) (s : State) :
    exec (.parLenHi b) s = .next { s with length := BitVec.ofNat 8 (digitValue b), pstate := .payloadSizeLow } := by
  rw [← dec_setWidth_eq]
  rfl

theorem exec_parLenLo (b : Byte) (s : State) : exec (.parLenLo b) s =
    .next { s with length := BitVec.ofNat 8 (16 * s.length.toNat + digitValue b), pstate := .payloadNibbleEven } := by
  rw [← shiftIn_eq]
  rfl

theorem exec_parOdd (b : Byte) (s : State) : exec (.parOdd b) s =
    .next { s with data := shiftIn s.data b,
                   out := s.out ++ .dispatch s.tag (shiftIn s.data b) ::
                     dispatcherOutput s.cfg s.tag (shiftIn s.data b),
                   length := BitVec.ofNat 8 (s.length.toNat + 255),
                   pstate := if s.length.toNat = 1 then .idle else .payloadNibbleEven } := by
  refine (execParOdd_eq b s).trans ?_
  rw [countNibble_eq, dspEvents_eq_dispatcherOutput]
  rfl

theorem eq_startByte_iff (b : Byte) : b = startByte ↔ b.toNat = 0x7B := BitVec.toNat_inj.symm

theorem decodePar_idle (b : Byte) : decodePar [0#8, b] = .ok (if b.toNat = 0x7B then .parStart else .parSkip b) := by
  refine (decodePar_code .idle b).trans ?_
  simp only [decodeTransition, eq_startByte_iff]

/-- Settles O13: the four transitions are record updates, and the word with code 0 is one of `Idle`. -/
theorem headerTransitions : Obligations.HeaderTransitions :=
  fun b _ => ⟨rfl, rfl, rfl, rfl, fun _ => decodePar_idle b⟩

/-- Settles O14: a length of one digit shifted by a digit has room for the next one. -/
theorem lengthCharactersAssembleTheLength : Obligations.LengthCharactersAssembleTheLength := by
  intro b s
  have hdigit := digitValue_lt b
  exact ⟨exec_parLenHi b s, exec_parLenLo b s, fun hlength => by omega⟩

/-- Settles O15: the digit is held, then the nibble is counted. -/
theorem evenNibbleIsHeldAndCounted : Obligations.EvenNibbleIsHeldAndCounted := by
  intro b s
  refine congrArg Host.Outcome.next (?_ : countNibble _ (s.setData _) = _)
  rw [countNibble_eq, dec_setWidth_eq]
  rfl

/-- Settles O16: the dispatched byte is the held nibble with the digit shifted in. -/
theorem oddNibbleDispatchesThePair : Obligations.OddNibbleDispatchesThePair := by
  intro b s
  have hdigit := digitValue_lt b
  have hbyte := toNat_shiftIn s.data b
  exact ⟨shiftIn s.data b, hbyte, fun hheld => by omega, exec_parOdd b s⟩

/-! ### A step on a link byte (R150, R157) -/

/-- One transition for each parser state, `Idle` with its two kinds of byte. -/
theorem exec_decodeTransition_refines (s : State) (b : Byte) :
    ∃ t, exec (decodeTransition s.pstate b) s = .next t ∧ parserRegs t = (parser (parserRegs s) b).1 ∧
      t.out = s.out ++ (parser (parserRegs s) b).2.elim [] (dispatchOutput s.cfg) ∧
      t = { s with pstate := t.pstate, tag := t.tag, length := t.length, data := t.data, out := t.out } := by
  have hregs : parserRegs s = ⟨s.pstate, s.tag.toNat, s.length.toNat, s.data.toNat⟩ := rfl
  have hsilent : s.out = s.out ++ [] := (List.append_nil _).symm
  rw [hregs]
  cases s.pstate with
  | idle =>
    simp only [decodeTransition, parser, eq_startByte_iff]
    split
    · exact ⟨_, rfl, rfl, hsilent, rfl⟩
    · exact ⟨_, rfl, rfl, hsilent, rfl⟩
  | sequenceNumber => exact ⟨_, rfl, rfl, hsilent, rfl⟩
  | packetId => exact ⟨_, rfl, rfl, hsilent, rfl⟩
  | payloadSizeHigh => exact ⟨_, exec_parLenHi b s, by simp [parserRegs, parser], hsilent, rfl⟩
  | payloadSizeLow => exact ⟨_, exec_parLenLo b s, by simp [parserRegs, parser], hsilent, rfl⟩
  | payloadNibbleEven =>
    exact ⟨_, evenNibbleIsHeldAndCounted b s, by simp [parserRegs, parser, ite_countdown_eq_zero], hsilent, rfl⟩
  | payloadNibbleOdd =>
    refine ⟨_, exec_parOdd b s, ?_, ?_, rfl⟩
    · simp [parserRegs, parser, ite_countdown_eq_zero, toNat_shiftIn]
    · simp [parser, dispatchOutput, ← toNat_shiftIn]

/-- Settles O17: the step takes the byte off the queue, which no transition reads, and runs the transition. -/
theorem linkStepRefinesTheParserFunction : Obligations.LinkStepRefinesTheParserFunction := by
  intro s b rest hc hq
  obtain ⟨t, hexec, hregs, hout, hframe⟩ := exec_decodeTransition_refines (s.setInq rest) b
  refine ⟨t, (step_linkRx hc hq).trans hexec, hregs, hout.trans ?_, hframe⟩
  change s.out ++ (parser (parserRegs s) b).2.elim [] (dispatchOutput s.cfg) = _
  cases (parser (parserRegs s) b).2 with
  | none => rfl
  | some td => rfl

theorem ite_idle_ne_sequenceNumber {P : Prop} [Decidable P] {p : PState} (h : p ≠ .sequenceNumber) :
    (if P then .idle else p) ≠ PState.sequenceNumber := by
  split
  · nofun
  · exact h

/-- Settles O18: each state runs its own transition on the byte, whose digit value is 4. -/
theorem noResynchronizationInsideAPacket : Obligations.NoResynchronizationInsideAPacket := by
  intro s rest hc hp hq
  have hfour : digitValue 0x7B#8 = 4 := by decide
  rw [step_linkRx hc hq]
  cases hstate : s.pstate with
  | idle => exact absurd hstate hp
  | sequenceNumber => exact ⟨_, rfl, nofun, fun _ => rfl, nofun, nofun, nofun, nofun, nofun⟩
  | packetId => exact ⟨_, rfl, nofun, nofun, fun _ => rfl, nofun, nofun, nofun, nofun⟩
  | payloadSizeHigh =>
    exact ⟨_, exec_parLenHi _ _, nofun, nofun, nofun, fun _ => by rw [hfour]; rfl, nofun, nofun, nofun⟩
  | payloadSizeLow =>
    exact ⟨_, exec_parLenLo _ _, nofun, nofun, nofun, nofun, fun _ => by rw [hfour]; rfl, nofun, nofun⟩
  | payloadNibbleEven =>
    refine ⟨_, evenNibbleIsHeldAndCounted _ _, ?_, nofun, nofun, nofun, nofun, fun _ => ⟨by rw [hfour], rfl⟩, nofun⟩
    exact ite_idle_ne_sequenceNumber nofun
  | payloadNibbleOdd =>
    refine ⟨_, exec_parOdd _ _, ?_, nofun, nofun, nofun, nofun, nofun, fun _ => ⟨?_, by simp⟩⟩
    · exact ite_idle_ne_sequenceNumber nofun
    · exact hfour ▸ shiftIn_eq s.data 0x7B#8

end Sys2Proof.Machine

namespace Sys2Proof.Machine

open SpecText

/-! ### Only a link byte and `Reset` write the parser's registers (R192)

As with `Emits`, sequencing keeps the property, so the framer and the line session have it by their parts. -/

/-- A next state, if there is one, has the parser's registers of `s`. -/
def KeepsParser (s : State) (r : Result) : Prop := ∀ t, r = .next t → parserRegs t = parserRegs s

section
variable {s u : State}

theorem keepsParser_next (h : parserRegs u = parserRegs s) : KeepsParser s (.next u) := by
  rintro t ⟨⟩
  exact h

theorem KeepsParser.andThen {r : Result} {k : State → Result} (hr : KeepsParser s r) (hk : ∀ u, KeepsParser u (k u)) :
    KeepsParser s (andThen r k) := by
  intro t ht
  obtain ⟨u, hu, hkt⟩ := andThen_eq_next.mp ht
  exact (hk u t hkt).trans (hr u hu)

theorem keepsParser_ite_refused {p : Prop} [Decidable p] {e : Refusal} (h : parserRegs u = parserRegs s) :
    KeepsParser s (if p then .next u else .refused e) := by
  split
  · exact keepsParser_next h
  · nofun

end

theorem bufWrite_keepsParser (i : Nat) (v : Byte) (s : State) : KeepsParser s (bufWrite i v s) := by
  unfold bufWrite
  split
  · exact keepsParser_next rfl
  · nofun

theorem terminate_keepsParser (s : State) : KeepsParser s (terminate s) := by
  refine (bufWrite_keepsParser s.cursor nulByte s).andThen fun u => ?_
  rw [classify_eq]
  exact keepsParser_next rfl

theorem execLinChar_keepsParser (b : Byte) (s : State) : KeepsParser s (execLinChar b s) := by
  refine (bufWrite_keepsParser s.cursor b s).andThen fun u => ?_
  split
  · exact terminate_keepsParser (u.setCursor (u.cursor + 1))
  · exact keepsParser_next rfl

/-- An operation that every parser state selects is no transition. -/
theorem exec_keepsParser {i : Instr} (hi : ∀ p, SelectedIn p i) (hreset : i ≠ .reset) (s : State) :
    KeepsParser s (exec i s) := by
  cases i with
  | parStart | parSkip => exact nomatch hi .packetId
  | parSeq | parTag | parLenHi | parLenLo | parEven | parOdd => exact nomatch hi .idle
  | reset => exact absurd rfl hreset
  | serByte v => exact exec_serByte v s ▸ keepsParser_ite_refused rfl
  | serWord v => exact exec_serWord v s ▸ keepsParser_ite_refused rfl
  | frmSingle t items => exact exec_frmSingle t items s ▸ keepsParser_ite_refused rfl
  | frmString t str => exact exec_frmString t str s ▸ keepsParser_next rfl
  | frmAgg a => exact exec_frmAgg a s ▸ keepsParser_ite_refused rfl
  | linTermCr | linTermLf => exact terminate_keepsParser s
  | linChar b => exact execLinChar_keepsParser b s
  | _ => exact keepsParser_next rfl

/-- An event that is no link byte selects its operation whatever the parser state. -/
theorem selectedIn_of_ne_linkRx {s : State} {e : InEvent} {i : Instr} (he : ∀ b, e ≠ .linkRx b)
    (hd : decode s.cfg (selectorOf s e).1 (selectorOf s e).2 = .ok i) (p : PState) : SelectedIn p i := by
  have hselector : selectorOf (s.setPstate p) e = selectorOf s e := by
    cases e with
    | linkRx b => exact absurd rfl (he b)
    | _ => rfl
  exact decode_selectorOf_selectedIn (s := s.setPstate p) (hselector ▸ hd)

/-! ### Where `PayloadNibbleEven` is entered (R155) -/

theorem countNibble_pstate_of_length_zero {p : PState} {s : State} (h : (countNibble p s).length = 0#8) :
    (countNibble p s).pstate = .idle :=
  if_pos h

/-- A link byte leads to `PayloadNibbleEven` with length 0 from `PayloadSizeLow` only: every other way into it counts a
nibble, and a count that ends at 0 leads to `Idle`. -/
theorem pstate_of_exec_decodeTransition {s t : State} {b : Byte} (h : exec (decodeTransition s.pstate b) s = .next t)
    (hp : t.pstate = .payloadNibbleEven) (hl : t.length = 0#8) : s.pstate = .payloadSizeLow := by
  cases hs : s.pstate with
  | payloadSizeLow => rfl
  | idle =>
    rw [hs, decodeTransition] at h
    split at h
    all_goals
      cases h
      cases hp
  | sequenceNumber | packetId | payloadSizeHigh =>
    rw [hs] at h
    cases h
    cases hp
  | payloadNibbleEven =>
    rw [hs] at h
    cases h
    cases (countNibble_pstate_of_length_zero hl).symm.trans hp
  | payloadNibbleOdd =>
    rw [hs] at h
    cases (execParOdd_eq b s).symm.trans h
    cases (countNibble_pstate_of_length_zero hl).symm.trans hp

/-- Settles O19: a link byte enters from `PayloadSizeLow`, `Reset` not at all, and every other event keeps the parser's
registers. -/
theorem evenStateWithZeroLengthOnlyFromTheHeader : Obligations.EvenStateWithZeroLengthOnlyFromTheHeader := by
  intro s t e rest hq ht hp hl
  obtain ⟨-, ⟨hnil, -⟩ | ⟨e', rest', i, hq', hd, hexec⟩⟩ := step_eq_next ht
  · cases hnil.symm.trans hq
  cases hq'.symm.trans hq
  by_cases hlink : ∃ b, e = .linkRx b
  · obtain ⟨b, rfl⟩ := hlink
    cases (decodePar_code s.pstate b).symm.trans hd
    exact .inl ⟨pstate_of_exec_decodeTransition (s := s.setInq rest) hexec hp hl, b, rfl⟩
  · have hother : ∀ b, e ≠ .linkRx b := not_exists.mp hlink
    have hreset : i ≠ .reset := by
      rintro rfl
      cases hexec
      cases hp
    have hregs : parserRegs t = parserRegs s :=
      exec_keepsParser (selectedIn_of_ne_linkRx hother hd) hreset (s.setInq rest) t hexec
    simp only [parserRegs, ParserRegs.mk.injEq] at hregs
    obtain ⟨hpstate, -, hlength, -⟩ := hregs
    exact .inr ⟨hpstate ▸ hp, (BitVec.eq_of_toNat_eq hlength) ▸ hl, hother⟩

end Sys2Proof.Machine

namespace Sys2Proof.Machine

open SpecText

/-! ### A packet is counted out (R149, R151, R152)

What a packet does is read pair by pair, with `run_pair`; that it is not over early is read character by character. -/

/-- A packet declares 1 to 256 characters, and its header leaves that count in the length register, 256 as 0 (D3). -/
theorem length_register_of_payloadCount {l1 l0 : Byte} {n : Nat} (h : n = payloadCount l1 l0) :
    1 ≤ n ∧ n ≤ 256 ∧ shiftIn ((dec l1).setWidth 8) l0 = BitVec.ofNat 8 n := by
  have hhigh := digitValue_lt l1
  have hlow := digitValue_lt l0
  rw [shiftIn_eq, dec_setWidth_eq, BitVec.toNat_ofNat, digitValue_mod_byte]
  rw [payloadCount] at h
  split at h
  · next hzero => rw [hzero, h]; decide
  · rw [h]
    exact ⟨by omega, by omega, rfl⟩

theorem length_pairs (payload : List Byte) : (pairs payload).length = payload.length / 2 := by
  induction payload using List.twoStepInduction with
  | nil => rfl
  | singleton a => simp [pairs]
  | cons_cons a b rest ih =>
    simp only [pairs, List.length_cons, ih]
    omega

/-- The byte a pair gives and what its dispatch puts in the trace, as R152 counts them. -/
theorem dispatch_dspEvents_eq_dispatchOutput (c : Config) (t a b : Byte) :
    .dispatch t (shiftIn ((dec a).setWidth 8) b) :: dspEvents c t (shiftIn ((dec a).setWidth 8) b) =
      dispatchOutput c (t.toNat, 16 * digitValue a + digitValue b) := by
  rw [dspEvents_eq_dispatcherOutput, shiftIn_eq, dec_setWidth_eq]
  simp [dispatchOutput]

/-- The last character of a payload of odd length is held and not dispatched (R151). -/
theorem run_last_single {s : State} {a : Byte} {rest : List InEvent} (hc : s.cfg.ok = true)
    (hp : s.pstate = .payloadNibbleEven) (hl : s.length = 1#8) (hq : s.inq = .linkRx a :: rest) :
    run 1 s = .next { s with pstate := .idle, length := 0#8, data := (dec a).setWidth 8, inq := rest } := by
  refine run_linkRx 0 hc hq ?_
  rw [hp]
  refine (evenNibbleIsHeldAndCounted a (s.setInq rest)).trans ?_
  simp [hl, dec_setWidth_eq]

/-- A payload as long as the length still to be counted: its pairs are dispatched in order, and the parser is in `Idle`. -/
theorem run_pairs {s : State} {payload : List Byte} {rest : List InEvent} (hc : s.cfg.ok = true)
    (hmax : payload.length ≤ 256) (hp : s.pstate = if payload = [] then .idle else .payloadNibbleEven)
    (hl : s.length = BitVec.ofNat 8 payload.length) (hq : s.inq = payload.map InEvent.linkRx ++ rest) :
    ∃ u, run payload.length s = .next u ∧ u.pstate = .idle ∧
      u.out = s.out ++ (pairs payload).flatMap (fun v => dispatchOutput s.cfg (s.tag.toNat, v)) ∧
      u = { s with pstate := u.pstate, length := u.length, data := u.data, out := u.out, inq := rest } := by
  induction payload using List.twoStepInduction generalizing s with
  | nil => exact ⟨s, rfl, hp, (List.append_nil _).symm, by rw [← show s.inq = rest from hq]⟩
  | singleton a => exact ⟨_, run_last_single hc hp hl hq, rfl, (List.append_nil _).symm, rfl⟩
  | cons_cons a b payload ih =>
    simp only [List.length_cons] at hmax hl
    have hpair : run 2 s = .next (pairRead _ (payload.map InEvent.linkRx ++ rest) s) :=
      run_pair hc hp (by bv_omega) hq
    have hlength : s.length - 2#8 = BitVec.ofNat 8 payload.length := by bv_omega
    have hdone : s.length - 2#8 = 0#8 ↔ payload = [] := by
      rw [← List.length_eq_zero_iff]
      bv_omega
    obtain ⟨u, hrun, hidle, hout, hframe⟩ := ih (s := pairRead _ _ s) hc (by omega)
      (by simp only [pairRead, hdone]) hlength rfl
    refine ⟨u, ?_, hidle, ?_, hframe⟩
    · rw [List.length_cons, List.length_cons, show payload.length + 1 + 1 = 2 + payload.length by omega, run_add, hpair]
      exact hrun
    · rw [hout]
      simp [pairRead, pairs, dispatch_dspEvents_eq_dispatchOutput]

/-! ### No byte before the last leads to `Idle` -/

/-- For fewer than `n` steps the run answers a state outside `Idle`. -/
def BusyFor (n : Nat) (s : State) : Prop := ∀ k, k < n → ∃ u, run k s = .next u ∧ u.pstate ≠ .idle

theorem BusyFor.of_linkRx {n : Nat} {s u : State} {b : Byte} {rest : List InEvent} (hc : s.cfg.ok = true)
    (hq : s.inq = .linkRx b :: rest) (hp : s.pstate ≠ .idle)
    (hexec : exec (decodeTransition s.pstate b) (s.setInq rest) = .next u) (h : BusyFor n u) : BusyFor (n + 1) s := by
  intro k hk
  cases k with
  | zero => exact ⟨s, rfl, hp⟩
  | succ k =>
    rw [run_linkRx k hc hq hexec]
    exact h k (by omega)

/-- A payload character leads to a state for the next one, unless it is the last. -/
theorem exec_nibble (b : Byte) {s : State} (hp : s.pstate = .payloadNibbleEven ∨ s.pstate = .payloadNibbleOdd) :
    ∃ u, exec (decodeTransition s.pstate b) s = .next u ∧
      (s.length ≠ 1#8 → u.pstate = .payloadNibbleEven ∨ u.pstate = .payloadNibbleOdd) ∧ u.length = s.length - 1#8 ∧
      u.cfg = s.cfg ∧ u.inq = s.inq := by
  have hmore (h : s.length ≠ 1#8) : s.length - 1#8 ≠ 0#8 := by bv_omega
  obtain hp | hp := hp
  · rw [hp]
    exact ⟨_, rfl, fun h => .inr (if_neg (hmore h)), rfl, rfl, rfl⟩
  · rw [hp]
    exact ⟨_, execParOdd_eq b s, fun h => .inl (if_neg (hmore h)), rfl, rfl, rfl⟩

theorem busyFor_payload {s : State} {payload : List Byte} {rest : List InEvent} (hc : s.cfg.ok = true)
    (hmax : payload.length ≤ 256)
    (hp : payload ≠ [] → s.pstate = .payloadNibbleEven ∨ s.pstate = .payloadNibbleOdd)
    (hl : s.length = BitVec.ofNat 8 payload.length) (hq : s.inq = payload.map InEvent.linkRx ++ rest) :
    BusyFor payload.length s := by
  induction payload generalizing s with
  | nil => nofun
  | cons b payload ih =>
    have hstate := hp (List.cons_ne_nil b payload)
    have hbusy : s.pstate ≠ .idle := by
      intro hidle
      simp [hidle] at hstate
    obtain ⟨u, hexec, hnext, hlength, hcfg, hinq⟩ :=
      exec_nibble b (s := s.setInq (payload.map InEvent.linkRx ++ rest)) hstate
    rw [List.length_cons] at hmax hl
    have hmore (h : payload ≠ []) : s.length ≠ 1#8 := by
      have hpos := List.length_pos_iff.mpr h
      bv_omega
    have hcount : s.length - 1#8 = BitVec.ofNat 8 payload.length := by bv_omega
    exact .of_linkRx hc hq hbusy hexec
      (ih (hcfg ▸ hc) (by omega) (fun h => hnext (hmore h)) (hlength.trans hcount) hinq)

/-- The frame start is the first byte of a packet (R141). -/
theorem run_frameStart {s : State} {rest : List InEvent} (n : Nat) (hc : s.cfg.ok = true) (hp : s.pstate = .idle)
    (hq : s.inq = .linkRx startByte :: rest) : run (n + 1) s = run n ((s.setInq rest).setPstate .sequenceNumber) :=
  run_linkRx n hc hq (by rw [hp]; rfl)

/-- After the frame start a packet keeps the parser out of `Idle` up to its last byte. -/
theorem busyFor_packet {s : State} {seq t l1 l0 : Byte} {payload : List Byte} {rest : List InEvent}
    (hc : s.cfg.ok = true) (hp : s.pstate = .sequenceNumber) (hlen : payload.length = payloadCount l1 l0)
    (hq : s.inq = (seq :: t :: l1 :: l0 :: payload).map InEvent.linkRx ++ rest) :
    BusyFor (4 + payload.length) s := by
  obtain ⟨-, hmax, hlength⟩ := length_register_of_payloadCount hlen
  rw [Nat.add_comm]
  refine .of_linkRx (u := (s.setInq _).setPstate .packetId) hc hq (hp ▸ nofun) (by rw [hp]; rfl) ?_
  refine .of_linkRx hc rfl nofun rfl ?_
  refine .of_linkRx hc rfl nofun rfl ?_
  refine .of_linkRx hc rfl nofun rfl ?_
  exact busyFor_payload hc hmax (fun _ => .inl rfl) hlength rfl

/-- Settles O20: the header declares the length, the payload is counted down to `Idle`, and no byte from the frame start on
leads there earlier. -/
theorem packetIsCountedOut : Obligations.PacketIsCountedOut := by
  intro s seq t l1 l0 payload rest hc hp hlen hq
  refine ⟨?_, fun k hpos hlt => ?_⟩
  · obtain ⟨hpos, hmax, hlength⟩ := length_register_of_payloadCount hlen
    have hne : payload ≠ [] := List.length_pos_iff.mp hpos
    have hheader := run_header (seq := seq) (t := t) (l1 := l1) (l0 := l0) (rest := payload.map InEvent.linkRx ++ rest)
      hc hp hq
    obtain ⟨u, hrun, hidle, hout, hframe⟩ := run_pairs (payload := payload) (rest := rest)
      (s := { s with pstate := .payloadNibbleEven, tag := t, length := shiftIn ((dec l1).setWidth 8) l0,
                     inq := payload.map InEvent.linkRx ++ rest }) hc hmax (if_neg hne).symm hlength rfl
    refine ⟨u, ?_, hidle, by rw [hframe], length_pairs payload, hout, by rw [hframe, hidle, hp]⟩
    rw [run_add, hheader]
    exact hrun
  · obtain ⟨k, rfl⟩ := Nat.exists_eq_add_of_le' hpos
    have hbusy : BusyFor (4 + payload.length)
        ((s.setInq ((seq :: t :: l1 :: l0 :: payload).map InEvent.linkRx ++ rest)).setPstate .sequenceNumber) :=
      busyFor_packet hc rfl hlen rfl
    rw [run_frameStart k hc hp hq]
    exact hbusy k (by omega)

end Sys2Proof.Machine

namespace Sys2Proof.Machine

open SpecText

/-! ### The dispatcher's decision order (R170) -/

/-- `dsp(t, d)` emits what R170 lists, for every pair, and does nothing else. -/
theorem dspRun_eq_dispatcherOutput (t d : Byte) (s : State) :
    dspRun t d s = .next { s with out := s.out ++ dispatcherOutput s.cfg t d } := by
  rw [← dspEvents_eq_dispatcherOutput]
  exact dspRun_eq t d s

/-- Settles O27: the step runs the operation the pair selects, which does what `dsp(t, d)` does; the LED tag is tested
first, so it wins where the tags are equal. -/
theorem dispatcherDecisionOrder : Obligations.DispatcherDecisionOrder := by
  refine ⟨fun s t d rest hc hq => ?_, fun s d hequal => ?_⟩
  · calc step s = exec (decodeDispatch s.cfg t d) (s.setInq rest) := step_dspCall hc hq
      _ = dspRun t d (s.setInq rest) := exec_decodeDispatch t d (s.setInq rest)
      _ = .next { s with inq := rest, out := s.out ++ dispatcherOutput s.cfg t d } :=
        dspRun_eq_dispatcherOutput t d (s.setInq rest)
  · have hled : dispatcherOutput s.cfg s.cfg.tagSerial d =
        [.act (if d.toNat / 16 % 2 = 0 then .dataLed else .errLed) (BitVec.ofNat 1 (d.toNat % 2))] := if_pos hequal
    rw [dspRun_eq_dispatcherOutput, hled]

/-! ### What a pair selects (R171 to R176)

The decoder tests bits 4 and 0 of the data byte; the statements read the same two bits off its number. -/

/-- Under the LED tag bit 4 of the data byte selects the LED and bit 0 the command, whatever the other six bits. -/
theorem decode_dsp_tagLed (c : Config) (d : Byte) : decode c .dsp [0x4C#8, d] =
    .ok (if d.toNat / 16 % 2 = 0 then if d.toNat % 2 = 0 then .dspLedDataOff d else .dspLedDataOn d
      else if d.toNat % 2 = 0 then .dspLedErrOff d else .dspLedErrOn d) := by
  have hled : d.getLsbD 4 = decide (d.toNat / 16 % 2 = 1) := Nat.testBit_eq_decide_div_mod_eq
  have hvalue : d.getLsbD 0 = decide (d.toNat % 2 = 1) := Nat.testBit_zero d.toNat
  simp only [decode, decodeDsp, decodeDispatch, tagLed, if_true, hled, hvalue, decide_eq_true_eq]
  obtain h4 | h4 := Nat.mod_two_eq_zero_or_one (d.toNat / 16) <;>
    obtain h0 | h0 := Nat.mod_two_eq_zero_or_one d.toNat <;> simp [h4, h0]

/-- Under any other tag the serial tag is tested next (R170). -/
theorem decode_dsp_of_ne {c : Config} {t : Byte} (d : Byte) (h : t ≠ 0x4C#8) : decode c .dsp [t, d] =
    .ok (if t = c.tagSerial then .dspSerial d else .dspNop t d) :=
  congrArg Except.ok (if_neg h)

/-- Settles O23: bit 4 clear selects the data LED, and bit 0 is the level it is set to. -/
theorem dataLedCommands : Obligations.DataLedCommands := by
  refine fun d s => ⟨rfl, rfl, fun hled => ?_⟩
  rw [decode_dsp_tagLed, if_pos hled]

/-- Settles O24: bit 4 set selects the error LED, and bit 0 is the level it is set to. -/
theorem errorLedCommands : Obligations.ErrorLedCommands := by
  refine fun d s => ⟨rfl, rfl, fun hled => ?_⟩
  have hnot : ¬ d.toNat / 16 % 2 = 0 := by omega
  rw [decode_dsp_tagLed, if_neg hnot]

/-- Settles O25: a serial tag apart from the LED tag reaches the second test of R170, which it meets. -/
theorem serialTagEchoesTheByte : Obligations.SerialTagEchoesTheByte := by
  refine fun d s => ⟨rfl, fun hled => ?_⟩
  rw [decode_dsp_of_ne d hled, if_pos rfl]

/-- Settles O26: a tag that fails both tests of R170 selects the operation that answers the same state. -/
theorem otherTagsDoNothing : Obligations.OtherTagsDoNothing := by
  refine fun t d s => ⟨rfl, fun hled hserial => ?_⟩
  rw [decode_dsp_of_ne d hled, if_neg hserial]

end Sys2Proof.Machine

namespace Sys2Proof.Machine

open SpecText

/-! ### The words of the line session (R184 to R190) -/

/-- The vocabulary's bytes are its characters, so the model's classification emits what R184 lists. -/
theorem lineEvents_eq_wordOutput (text : List Byte) : lineEvents text = wordOutput text := rfl

/-- Every word of the vocabulary emits something. -/
theorem wordOutput_ne_nil_of_mem_vocabulary : ∀ word ∈ vocabulary, wordOutput word ≠ [] := by
  decide

/-- Settles O28: each of the four operations appends its one command to the trace. -/
theorem ledWordsSetTheirLed : Obligations.LedWordsSetTheirLed :=
  fun _ => ⟨rfl, rfl, rfl, rfl⟩

/-- Settles O29: the operation appends the two console bytes to the trace. -/
theorem helloIsAnsweredOnTheConsole : Obligations.HelloIsAnsweredOnTheConsole :=
  fun _ => rfl

/-- Settles O30: a text that emits nothing is no word, and what is no word decodes to the operation without effect. -/
theorem unmatchedLinesHaveNoEffect : Obligations.UnmatchedLinesHaveNoEffect := by
  refine fun text s => ⟨rfl, fun hsilent c => ?_⟩
  have hunmatched : text ∉ vocabulary := fun hmem => wordOutput_ne_nil_of_mem_vocabulary text hmem hsilent
  exact congrArg Except.ok (decodeText_of_not_mem text hunmatched)

/-! ### The end of a line (R181 to R184) -/

/-- The text of a buffer with a NUL in it ends at the first one. -/
theorem exists_lineText_eq {s : State} {k : Nat} (hk : k < s.cfg.lineCap) (hnul : s.buf.read k = nulByte) :
    ∃ n, n ≤ k ∧ s.buf.read n = nulByte ∧ (∀ j, j < n → s.buf.read j ≠ nulByte) ∧
      lineText s = (List.range n).map s.buf.read := by
  have hex : ∃ j, s.buf.read j = nulByte := ⟨k, hnul⟩
  have hle : Nat.find hex ≤ k := Nat.find_min' hex hnul
  have hbelow (j : Nat) (hj : j < Nat.find hex) : s.buf.read j ≠ nulByte := Nat.find_min hex hj
  exact ⟨Nat.find hex, hle, Nat.find_spec hex, hbelow,
    lineText_of_nul s (Nat.find hex) (hle.trans_lt hk) (Nat.find_spec hex) hbelow⟩

/-- A byte written in the buffer is read there. -/
theorem Memory.read_write_self (m : Memory) (i : Nat) (v : Byte) (h : m.wf = true) : (m.write i v).read i = v :=
  (m.read_write i i v h).trans (if_pos rfl)

/-- What a termination does to the buffer, the cursor and the trace, the text given by the least index of a NUL. -/
theorem terminate_endsLine {s : State} (hcur : s.cursor < s.cfg.lineCap) (hwf : s.buf.wf = true) :
    ∃ t n, terminate s = .next t ∧ n ≤ s.cursor ∧ t.buf.read n = nulByte ∧ (∀ j, j < n → t.buf.read j ≠ nulByte) ∧
      (∀ j, t.buf.read j = if j = s.cursor then nulByte else s.buf.read j) ∧
      t = { s with buf := t.buf, cursor := 0, out := s.out ++ wordOutput ((List.range n).map t.buf.read) } := by
  obtain ⟨n, hn, hnul, hbelow, htext⟩ := exists_lineText_eq (s := s.setBuf (s.buf.write s.cursor nulByte)) hcur
    (s.buf.read_write_self s.cursor nulByte hwf)
  refine ⟨_, n, terminate_eq s hcur, hn, hnul, hbelow, fun j => s.buf.read_write s.cursor j nulByte hwf, ?_⟩
  rw [htext, lineEvents_eq_wordOutput]
  rfl

/-- Settles O31: both terminators run the termination, which stores nothing of its own byte. -/
theorem terminatorsEndTheLine : Obligations.TerminatorsEndTheLine := by
  rintro i s (rfl | rfl) hcur hwf
  · exact terminate_endsLine hcur hwf
  · exact terminate_endsLine hcur hwf

theorem storeChar_read {b : Byte} {s : State} (hwf : s.buf.wf = true) (j : Nat) :
    (storeChar b s).buf.read j = if j = s.cursor then b else s.buf.read j :=
  s.buf.read_write s.cursor j b hwf

/-- Settles O32: below the last place the character is stored; at the last place the state that stores it ends its
line. -/
theorem charactersAccumulateToCapacity : Obligations.CharactersAccumulateToCapacity := by
  refine fun b s _ hwf => ⟨fun hbelow => ?_, fun hlast => ?_⟩
  · exact ⟨storeChar b s, execLinChar_of_below hbelow, storeChar_read hwf, rfl⟩
  · have hcur : (storeChar b s).cursor < (storeChar b s).cfg.lineCap := show s.cursor + 1 < s.cfg.lineCap by omega
    obtain ⟨t, n, hterm, hn, hnul, hbelow, hread, hframe⟩ :=
      terminate_endsLine hcur (s.buf.write_wf s.cursor b hwf)
    refine ⟨t, n, (execLinChar_of_last hlast).trans hterm, fun j => ?_, hn, hnul, hbelow, hframe⟩
    have hnext : (storeChar b s).cursor = s.cursor + 1 := rfl
    rw [hread, storeChar_read hwf, hnext]
    obtain rfl | hne := eq_or_ne j s.cursor
    · simp
    · simp only [hne, if_false]
      rfl

/-! ### A line of characters (R180, R237)

The characters of the line that is being received are the bytes below the cursor; a character stored is one more of them,
and a termination classifies them. -/

/-- The characters received since the line began. -/
def lineSoFar (s : State) : List Byte := (List.range s.cursor).map s.buf.read

theorem lineSoFar_of_cursor_zero {s : State} (h : s.cursor = 0) : lineSoFar s = [] := by
  rw [lineSoFar, h]
  rfl

/-- A byte written at the cursor is not yet one of the line. -/
theorem map_read_write_cursor (b : Byte) (s : State) :
    (List.range s.cursor).map (s.buf.write s.cursor b).read = lineSoFar s :=
  List.map_congr_left fun _ hj => s.buf.read_write_of_ne b (List.mem_range.mp hj).ne

theorem lineSoFar_storeChar {b : Byte} {s : State} (hwf : s.buf.wf = true) :
    lineSoFar (storeChar b s) = lineSoFar s ++ [b] := by
  show (List.range (s.cursor + 1)).map (s.buf.write s.cursor b).read = _
  rw [List.range_succ, List.map_append, map_read_write_cursor, List.map_singleton, Memory.read_write_self _ _ _ hwf]

theorem takeWhile_append_nul (text after : List Byte) :
    (text ++ nulByte :: after).takeWhile (· != nulByte) = text.takeWhile (· != nulByte) := by
  induction text with
  | nil => rfl
  | cons b text ih => simp only [List.cons_append, List.takeWhile_cons, ih]

/-- The text of a buffer with a NUL at the cursor is the line so far, cut at its first NUL. -/
theorem lineText_eq_takeWhile {s : State} (hcur : s.cursor < s.cfg.lineCap) (hnul : s.buf.read s.cursor = nulByte) :
    lineText s = (lineSoFar s).takeWhile (· != nulByte) := by
  obtain ⟨d, hd⟩ := Nat.exists_eq_add_of_lt hcur
  have hrange : List.range s.cfg.lineCap = List.range s.cursor ++ s.cursor :: (List.range d).map (s.cursor + 1 + ·) := by
    rw [hd, show s.cursor + d + 1 = s.cursor + 1 + d by omega, List.range_add, List.range_succ, List.append_assoc]
    rfl
  rw [lineText, hrange, List.map_append, List.map_cons, hnul]
  exact takeWhile_append_nul (lineSoFar s) _

/-- A termination classifies the line so far. -/
theorem terminate_classifies {s : State} (hcur : s.cursor < s.cfg.lineCap) (hwf : s.buf.wf = true) :
    ∃ m, terminate s = .next { s with buf := m, cursor := 0,
                                      out := s.out ++ wordOutput ((lineSoFar s).takeWhile (· != nulByte)) } := by
  have htext : lineText (s.setBuf (s.buf.write s.cursor nulByte)) = (lineSoFar s).takeWhile (· != nulByte) :=
    map_read_write_cursor nulByte s ▸
      lineText_eq_takeWhile (s := s.setBuf (s.buf.write s.cursor nulByte)) hcur
        (s.buf.read_write_self s.cursor nulByte hwf)
  refine ⟨s.buf.write s.cursor nulByte, ?_⟩
  rw [terminate_eq s hcur, htext, lineEvents_eq_wordOutput]
  rfl

/-- Both terminators run the termination (R181). -/
theorem exec_decodeConsole_terminator {e : Byte} (he : e = crByte ∨ e = lfByte) (s : State) :
    exec (decodeConsole e) s = terminate s := by
  obtain rfl | rfl := he
  · rfl
  · rfl

/-- Every other byte is a character (R182). -/
theorem decodeConsole_of_char {b : Byte} (hb : b ≠ crByte ∧ b ≠ lfByte) : decodeConsole b = .linChar b := by
  obtain ⟨hcr, hlf⟩ := hb
  rw [decodeConsole, if_neg hcr, if_neg hlf]

theorem andThen_run_zero (r : Result) : andThen r (run 0) = r := by
  cases r <;> rfl

/-- Characters short of the capacity only lengthen the line so far. -/
theorem run_characters {s : State} {text : List Byte} {rest : List InEvent} (hc : s.cfg.ok = true)
    (hwf : s.buf.wf = true) (hroom : s.cursor + text.length + 2 ≤ s.cfg.lineCap)
    (hchars : ∀ b ∈ text, b ≠ crByte ∧ b ≠ lfByte) (hq : s.inq = text.map InEvent.conRx ++ rest) :
    ∃ u, run text.length s = .next u ∧ u.buf.wf = true ∧ lineSoFar u = lineSoFar s ++ text ∧
      u = { s with buf := u.buf, cursor := s.cursor + text.length, inq := rest } := by
  induction text generalizing s with
  | nil => exact ⟨s, rfl, hwf, (List.append_nil _).symm, by rw [← show s.inq = rest from hq]; rfl⟩
  | cons b text ih =>
    rw [List.length_cons] at hroom
    rw [List.forall_mem_cons] at hchars
    obtain ⟨hb, hchars⟩ := hchars
    have hstore : exec (decodeConsole b) (s.setInq (text.map InEvent.conRx ++ rest)) =
        .next (storeChar b (s.setInq (text.map InEvent.conRx ++ rest))) := by
      rw [decodeConsole_of_char hb]
      exact execLinChar_of_below (show s.cursor + 2 < s.cfg.lineCap by omega)
    obtain ⟨u, hrun, huwf, hline, hframe⟩ := ih (s := storeChar b (s.setInq (text.map InEvent.conRx ++ rest))) hc
      (s.buf.write_wf s.cursor b hwf) (show s.cursor + 1 + text.length + 2 ≤ s.cfg.lineCap by omega) hchars rfl
    refine ⟨u, ?_, huwf, ?_, ?_⟩
    · rw [List.length_cons, run_succ, step_conRx hc hq]
      exact hstore ▸ hrun
    · exact hline.trans ((congrArg (· ++ text) (lineSoFar_storeChar hwf)).trans (List.append_assoc _ [b] text))
    · rw [List.length_cons, show s.cursor + (text.length + 1) = s.cursor + 1 + text.length by omega]
      exact hframe

/-- Characters short of the capacity, then a byte that finds them all in the line so far. -/
theorem run_line {s : State} {text : List Byte} {e : Byte} {rest : List InEvent} (hinv : s.inv) (hcur : s.cursor = 0)
    (hroom : text.length + 2 ≤ s.cfg.lineCap) (hchars : ∀ b ∈ text, b ≠ crByte ∧ b ≠ lfByte)
    (hq : s.inq = (text ++ [e]).map InEvent.conRx ++ rest) :
    ∃ u, run (text.length + 1) s = exec (decodeConsole e) u ∧ u.buf.wf = true ∧ lineSoFar u = text ∧
      u = { s with buf := u.buf, cursor := text.length, inq := rest } := by
  have hc := cfg_ok_of_inv hinv
  have hsplit : s.inq = text.map InEvent.conRx ++ (.conRx e :: rest) := by simp [hq]
  obtain ⟨u, hrun, hwf, hline, hframe⟩ := run_characters hc (buf_wf_of_inv hinv) (by omega) hchars hsplit
  rw [lineSoFar_of_cursor_zero hcur, List.nil_append] at hline
  rw [hcur, Nat.zero_add] at hframe
  have hcu : u.cfg.ok = true := by rwa [hframe]
  have hqu : u.inq = .conRx e :: rest := by rw [hframe]
  refine ⟨u.setInq rest, ?_, hwf, hline, ?_⟩
  · rw [run_add, hrun, andThen_next, run_succ, step_conRx hcu hqu]
    exact andThen_run_zero _
  · rw [hframe]
    rfl

/-- Settles O33: the terminator classifies the characters received before it. -/
theorem wholeLineIsClassified : Obligations.WholeLineIsClassified := by
  intro s text e rest hinv hcur hroom hchars he hq
  obtain ⟨u, hrun, hwf, hline, hframe⟩ := run_line hinv hcur hroom hchars hq
  have hinside : u.cursor < u.cfg.lineCap := by
    rw [hframe]
    show text.length < s.cfg.lineCap
    omega
  obtain ⟨m, hterm⟩ := terminate_classifies hinside hwf
  refine ⟨_, hrun.trans ((exec_decodeConsole_terminator he u).trans hterm), ?_⟩
  rw [hline, hframe]
  rfl

/-- Settles O34: the last character the line has room for is one more of the line, and ends it. -/
theorem fullLineIsCutAtCapacity : Obligations.FullLineIsCutAtCapacity := by
  intro s text rest hinv hcur hfull hchars hq
  obtain rfl | ⟨front, b, rfl⟩ := List.eq_nil_or_concat' text
  · have hcap := cursor_le_of_inv hinv
    rw [List.length_nil] at hfull
    omega
  obtain ⟨hfront, hb⟩ := List.forall_mem_append.mp hchars
  rw [List.length_append, List.length_singleton] at hfull ⊢
  obtain ⟨u, hrun, hwf, hline, hframe⟩ := run_line hinv hcur (by omega) hfront hq
  have hlast : u.cursor + 2 = u.cfg.lineCap := by
    rw [hframe]
    exact hfull
  have hinside : (storeChar b u).cursor < (storeChar b u).cfg.lineCap := show u.cursor + 1 < u.cfg.lineCap by omega
  obtain ⟨m, hterm⟩ := terminate_classifies hinside (u.buf.write_wf u.cursor b hwf)
  rw [decodeConsole_of_char (hb b List.mem_cons_self)] at hrun
  refine ⟨_, hrun.trans ((execLinChar_of_last hlast).trans hterm), ?_⟩
  rw [lineSoFar_storeChar hwf, hline, hframe]
  rfl

end Sys2Proof.Machine

namespace Sys2Proof.Machine

/-! ### What each event leaves unchanged (R33, R123, R192, R220)

From every state, the ones no run reaches included. -/

/-- A termination that answers writes the NUL at the cursor, the cursor and the trace. -/
theorem terminate_frame {s t : State} (h : terminate s = .next t) :
    t = { s with buf := s.buf.write s.cursor nulByte, cursor := 0, out := t.out } := by
  by_cases hcur : s.cursor < s.cfg.lineCap
  · cases (terminate_eq s hcur).symm.trans h
    rfl
  · cases (terminate_fault s hcur).symm.trans h

/-- A character that is answered is stored, and ends its line or does not. -/
theorem execLinChar_eq_next {b : Byte} {s t : State} (h : execLinChar b s = .next t) :
    t = storeChar b s ∨ terminate (storeChar b s) = .next t := by
  obtain ⟨u, hstore, hrest⟩ := andThen_eq_next.mp h
  obtain ⟨-, rfl⟩ := bufWrite_eq_next.mp hstore
  split at hrest
  · exact .inr hrest
  · cases hrest
    exact .inl rfl

/-- `t` is `s` but for the trace and the line session, of whose buffer only the bytes at the cursor and just after it may
differ. -/
def LineFrame (s t : State) : Prop :=
  t = { s with buf := t.buf, cursor := t.cursor, out := t.out } ∧
    ∀ j, j ≠ s.cursor → j ≠ s.cursor + 1 → t.buf.read j = s.buf.read j

theorem terminate_lineFrame {s t : State} (h : terminate s = .next t) : LineFrame s t := by
  rw [terminate_frame h]
  exact ⟨rfl, fun j hj _ => s.buf.read_write_of_ne nulByte hj⟩

theorem execLinChar_lineFrame {b : Byte} {s t : State} (h : execLinChar b s = .next t) : LineFrame s t := by
  obtain rfl | hterm := execLinChar_eq_next h
  · exact ⟨rfl, fun j hj _ => s.buf.read_write_of_ne b hj⟩
  · rw [terminate_frame hterm]
    refine ⟨rfl, fun j hj hnext => ?_⟩
    calc ((s.buf.write s.cursor b).write (s.cursor + 1) nulByte).read j
        = (s.buf.write s.cursor b).read j := Memory.read_write_of_ne _ nulByte hnext
      _ = s.buf.read j := Memory.read_write_of_ne _ b hj

theorem exec_decodeConsole_lineFrame {b : Byte} {s t : State} (h : exec (decodeConsole b) s = .next t) :
    LineFrame s t := by
  by_cases he : b = crByte ∨ b = lfByte
  · exact terminate_lineFrame ((exec_decodeConsole_terminator he s).symm.trans h)
  · rw [decodeConsole_of_char (not_or.mp he)] at h
    exact execLinChar_lineFrame h

/-- A transition works on the parser's registers and the trace. -/
theorem exec_decodeTransition_frame {b : Byte} {s t : State} (h : exec (decodeTransition s.pstate b) s = .next t) :
    t = { s with pstate := t.pstate, tag := t.tag, length := t.length, data := t.data, out := t.out } := by
  obtain ⟨p, es, -, hlocal⟩ := exec_decodeTransition_local b s
  cases (hlocal s s.inq s.out).symm.trans h
  rfl

/-- A framer command works on the payload buffer and the trace, and leaves the buffer empty. -/
theorem exec_decodeFrm_frame {bytes : List Byte} {i : Instr} {s t : State} (hd : decodeFrm bytes = .ok i)
    (h : exec i s = .next t) : t = { s with pbuf := [], out := t.out } := by
  obtain ⟨tag, items, rfl⟩ | ⟨tag, str, rfl⟩ | ⟨a, rfl⟩ := decodeFrm_eq_ok hd
  · rw [exec_frmSingle] at h
    split_ifs at h
    cases h
    rfl
  · cases (exec_frmString tag str s).symm.trans h
    rfl
  · rw [exec_frmAgg] at h
    split_ifs at h
    cases h
    rfl

/-! ### No operation writes the parameters or the queue -/

/-- A next state, if there is one, has the parameters and the waiting events of `s`. -/
def KeepsCfgInq (s : State) (r : Result) : Prop := ∀ t, r = .next t → t.cfg = s.cfg ∧ t.inq = s.inq

section
variable {s u : State}

theorem keepsCfgInq_next (hcfg : u.cfg = s.cfg) (hinq : u.inq = s.inq) : KeepsCfgInq s (.next u) := by
  rintro t ⟨⟩
  exact ⟨hcfg, hinq⟩

theorem keepsCfgInq_ite_refused {p : Prop} [Decidable p] {e : Refusal} (hcfg : u.cfg = s.cfg) (hinq : u.inq = s.inq) :
    KeepsCfgInq s (if p then .next u else .refused e) := by
  split
  · exact keepsCfgInq_next hcfg hinq
  · nofun

theorem LineFrame.keeps_cfg_inq (h : LineFrame s u) : u.cfg = s.cfg ∧ u.inq = s.inq := by
  obtain ⟨hframe, -⟩ := h
  rw [hframe]
  exact ⟨rfl, rfl⟩

end

theorem exec_keepsCfgInq (i : Instr) (s : State) : KeepsCfgInq s (exec i s) := by
  cases i with
  | serByte v => exact exec_serByte v s ▸ keepsCfgInq_ite_refused rfl rfl
  | serWord v => exact exec_serWord v s ▸ keepsCfgInq_ite_refused rfl rfl
  | frmSingle t items => exact exec_frmSingle t items s ▸ keepsCfgInq_ite_refused rfl rfl
  | frmString t str => exact exec_frmString t str s ▸ keepsCfgInq_next rfl rfl
  | frmAgg a => exact exec_frmAgg a s ▸ keepsCfgInq_ite_refused rfl rfl
  | parOdd b => exact exec_parOdd b s ▸ keepsCfgInq_next rfl rfl
  | linTermCr | linTermLf => exact fun t ht => (terminate_lineFrame ht).keeps_cfg_inq
  | linChar b => exact fun t ht => (execLinChar_lineFrame ht).keeps_cfg_inq
  | _ => exact keepsCfgInq_next rfl rfl

/-- Settles O40: the step takes the event off the queue, no operation writes the queue or the parameters, and each of the
four port events selects operations of one frame. -/
theorem framesOfEachEvent : Obligations.FramesOfEachEvent := by
  intro s t e rest hq ht
  obtain ⟨-, ⟨hnil, -⟩ | ⟨e', rest', i, hq', hd, hexec⟩⟩ := step_eq_next ht
  · cases hnil.symm.trans hq
  cases hq'.symm.trans hq
  obtain ⟨hcfg, hinq⟩ := exec_keepsCfgInq i (s.setInq rest) t hexec
  refine ⟨hcfg, hinq, ?_⟩
  cases e with
  | conRx b =>
    cases hd
    exact ⟨fun _ _ => exec_decodeConsole_lineFrame hexec, nofun, nofun, nofun⟩
  | linkRx b =>
    cases (decodePar_code s.pstate b).symm.trans hd
    exact ⟨nofun, fun _ _ => exec_decodeTransition_frame (s := s.setInq rest) hexec, nofun, nofun⟩
  | frmCmd request => exact ⟨nofun, nofun, fun _ _ => exec_decodeFrm_frame hd hexec, nofun⟩
  | reset =>
    cases hd
    cases hexec
    exact ⟨nofun, nofun, nofun, fun _ => ⟨rfl, rfl⟩⟩
  | dspCall | lineCall | funcCall => exact ⟨nofun, nofun, nofun, nofun⟩

end Sys2Proof.Machine

namespace Sys2Proof.Machine

/-! ### The flush (R232)

Outside `Idle` the bytes still needed to reach it are bounded by a number that every byte but `{` takes down by one. -/

/-- How many bytes, none of them `{`, lead a parser in the given state and with the given length to `Idle`. A length of 0
counts 256 characters (D3). -/
def bytesToIdle (p : PState) (length : Byte) : Nat :=
  match p with
  | .idle => 0
  | .sequenceNumber => 260
  | .packetId => 259
  | .payloadSizeHigh => 258
  | .payloadSizeLow => 257
  | .payloadNibbleEven | .payloadNibbleOdd => (length - 1#8).toNat + 1

theorem bytesToIdle_le (p : PState) (length : Byte) : bytesToIdle p length ≤ 260 := by
  have hchars := (length - 1#8).isLt
  cases p with
  | payloadNibbleEven | payloadNibbleOdd =>
    rw [bytesToIdle]
    omega
  | _ => simp [bytesToIdle]

theorem eq_idle_of_bytesToIdle_eq_zero {p : PState} {length : Byte} (h : bytesToIdle p length = 0) : p = .idle := by
  cases p with
  | idle => rfl
  | _ => cases h

/-- A counted nibble leads to `Idle` when it was the last, and leaves one character fewer otherwise. -/
theorem bytesToIdle_countNibble {p : PState} (hp : p = .payloadNibbleEven ∨ p = .payloadNibbleOdd) (s : State) :
    bytesToIdle (countNibble p s).pstate (countNibble p s).length ≤ (s.length - 1#8).toNat := by
  simp only [countNibble, State.setPstate_pstate, State.setPstate_length, State.setLength_length]
  split
  · exact Nat.zero_le _
  · next hmore =>
    have hpred : (s.length - 1#8 - 1#8).toNat + 1 = (s.length - 1#8).toNat := by bv_omega
    obtain rfl | rfl := hp
    · exact hpred.le
    · exact hpred.le

/-- A transition does not test `pstate`, so `p` stands for the parser state that selects it. -/
theorem bytesToIdle_decodeTransition {p : PState} {s t : State} {b : Byte} (hb : b ≠ startByte)
    (h : exec (decodeTransition p b) s = .next t) : bytesToIdle t.pstate t.length ≤ bytesToIdle p s.length - 1 := by
  cases p with
  | idle =>
    rw [decodeTransition, if_neg hb] at h
    cases h
    exact Nat.zero_le _
  | sequenceNumber | packetId | payloadSizeHigh =>
    cases h
    exact Nat.le_refl _
  | payloadSizeLow =>
    cases h
    exact (shiftIn s.length b - 1#8).isLt
  | payloadNibbleEven =>
    cases h
    exact bytesToIdle_countNibble (.inr rfl) _
  | payloadNibbleOdd =>
    cases (execParOdd_eq b s).symm.trans h
    exact bytesToIdle_countNibble (.inl rfl) _

/-- As many bytes without a frame start as the parser needs at most end in `Idle`. -/
theorem run_flush {s : State} {bytes : List Byte} {rest : List InEvent} (hc : s.cfg.ok = true)
    (hne : ∀ b ∈ bytes, b ≠ startByte) (hleft : bytesToIdle s.pstate s.length ≤ bytes.length)
    (hq : s.inq = bytes.map InEvent.linkRx ++ rest) :
    ∃ t, run bytes.length s = .next t ∧ t.pstate = .idle ∧ t.inq = rest := by
  induction bytes generalizing s with
  | nil => exact ⟨s, rfl, eq_idle_of_bytesToIdle_eq_zero (Nat.le_zero.mp hleft), hq⟩
  | cons b bytes ih =>
    obtain ⟨hb, hbytes⟩ := List.forall_mem_cons.mp hne
    obtain ⟨u, hexec⟩ := exec_decodeTransition_answers s.pstate b (s.setInq (bytes.map InEvent.linkRx ++ rest))
    obtain ⟨hcfg, hinq⟩ := exec_keepsCfgInq _ _ u hexec
    have hcount := bytesToIdle_decodeTransition hb hexec
    rw [List.length_cons, run_linkRx bytes.length hc hq hexec]
    exact ih (hcfg ▸ hc) hbytes (hcount.trans (Nat.sub_le_of_le_add hleft)) hinq

/-- Settles O21: no state needs more than 260 bytes, the most being those after a frame start, a header that declares 256
characters (D3). -/
theorem flushReachesIdle : Obligations.FlushReachesIdle := by
  intro s bytes rest hc hlen hne hq
  rw [← hlen]
  exact run_flush hc hne (hlen ▸ bytesToIdle_le s.pstate s.length) hq

/-! ### Reset (R220, R221) -/

/-- Settles O35: `RESET` is one record update, which leaves the trace, the parameters, the queue and `ret`. -/
theorem resetReachesIdleAndEmitsNothing : Obligations.ResetReachesIdleAndEmitsNothing :=
  fun _ => ⟨_, rfl, rfl, rfl, rfl, rfl, rfl, rfl, rfl⟩

theorem two_le_lineCap_of_ok {c : Config} (h : c.ok = true) : 2 ≤ c.lineCap := by
  simp only [Config.ok, Bool.and_eq_true, decide_eq_true_eq] at h
  obtain ⟨⟨hline, -⟩, -⟩ := h
  exact hline

/-- `Idle` has no parser invariant to meet; the line and the payload buffer are empty. -/
theorem inv_resetWith {c : Config} (h : c.ok = true) : (State.resetWith c).inv :=
  ⟨h, ⟨nofun, nofun⟩, ⟨two_le_lineCap_of_ok h, Memory.wf_reset, rfl, nofun⟩, Nat.zero_le _, rfl⟩

/-- Settles O36: the defaults are one admitted choice of the parameters. -/
theorem resetStateMeetsTheInvariant : Obligations.ResetStateMeetsTheInvariant :=
  ⟨fun _ hc => ⟨inv_resetWith hc, rfl, rfl, rfl, rfl⟩, inv_resetWith (c := Config.defaults) (by decide), rfl⟩

end Sys2Proof.Machine
